-- ==== Sys2Proof/Word.lean ====
section
/-! DEFINITION. The word types of the RingBuffer core. The only multi-byte items are the 64-bit command word and the
32-bit result word (rule R55); storage holds bytes. The cursors are W-bit with W a parameter (rule R8), so they are
natural numbers below 2^W, as rule R11 reads every register. -/

namespace Sys2Proof

/-- One byte of storage, of a payload or of response data (rules R35, R71). -/
abbrev Byte := BitVec 8

/-- The 64-bit command word (rules R71, R73). -/
abbrev CommandWord := BitVec 64

/-- The 32-bit operand field N / V, bits 63:32 of a command word (rule R73). -/
abbrev OperandWord := BitVec 32

/-- The 32-bit result word RESULT of a response (rule R71). -/
abbrev ResultWord := BitVec 32

end Sys2Proof
end

