-- ==== Sys2Proof/Syntax.lean ====
section
/-! DEFINITION. The syntax: the two ports, the fourteen opcodes, the commands as instructions (one constructor per row
of spec/opcode_table.json), and what travels between the agents and the block: commands, answers and the events of the
one total order of rule R58. -/

namespace Sys2Proof

/-- The two command ports: P for the producer, C for the consumer (rule R70). -/
inductive Port where
  | producer
  | consumer
  deriving DecidableEq, Repr

/-- The fourteen opcodes of rule R78. -/
inductive Opcode where
  | init | write | dmaAdvance | read | readUntil | syncToByte
  | isEmpty | isFull | dataCount | emptyCount | contigDataCount | contigEmptyCount | fullCount | status
  deriving DecidableEq, Repr

/-- One command with its operands (rules R77, R78). The port a command arrives on and the payload of WRITE are not in
the command word: they belong to the transaction (rule R71). Every operand has exactly its field's width, so every
term is a command the encoding can spell. -/
inductive Instr where
  | init
  | write (n : OperandWord)
  | dmaAdvance (v : OperandWord)
  | read (n : OperandWord)
  | readUntil (max : OperandWord) (delim : Byte)
  | syncToByte (marker : Byte)
  | isEmpty
  | isFull
  | dataCount
  | emptyCount
  | contigDataCount
  | contigEmptyCount
  | fullCount
  | status
  deriving DecidableEq, Repr

/-- A command as an agent issues it: the 64-bit word and the payload bytes (rule R71). -/
structure Command where
  word    : CommandWord
  payload : List Byte
  deriving DecidableEq, Repr

/-- A decoded command on a port with its payload, what a well-formedness check reads. -/
structure Request where
  port    : Port
  instr   : Instr
  payload : List Byte
  deriving DecidableEq, Repr

/-- A response: `ERR`, `RESULT` and `DATA` (rules R71, R74), with the port it answers. -/
structure Answer where
  port   : Port
  err    : Bool
  result : ResultWord
  data   : List Byte
  deriving DecidableEq, Repr

/-- One step of the total order of rule R58 and its liberties (environment table of 20_memory.md): an agent issues a
command on its own port (R72), the block takes the oldest waiting command of a port (R72), the DMA peripheral stores
one byte (R60), the reset source asserts reset (R230). -/
inductive Event where
  | issue (p : Port) (c : Command)
  | serve (p : Port)
  | dmaStore (off : Nat) (b : Byte)
  | reset
  deriving DecidableEq, Repr

end Sys2Proof
end

