-- ==== Sys2Proof/Decode.lean ====
section
/-! DEFINITION. Decoding and encoding of command words (rules R73 to R80), the role table (rule R70) and the byte
transport (rules R75, R80). The decoder is total and rejects by name. -/

namespace Sys2Proof

/-- Why a 64-bit word is no command. `reservedOpcode`: OPC is 0x6 or 0x7 (rule R79). `reservedField op`: OPC is that of
`op` and a bit outside its used fields is 1 (rule R77). -/
inductive Reject where
  | reservedOpcode
  | reservedField (op : Opcode)
  deriving DecidableEq, Repr

/-- Why a byte sequence starts with no command: fewer than the 8 bytes of a command word (rule R80), or a word that is
no command. -/
inductive ByteReject where
  | truncated
  | word (r : Reject)
  deriving DecidableEq, Repr

/-- OPC of each opcode (rule R78). -/
def Opcode.code : Opcode → BitVec 4
  | .init => 0x0#4
  | .write => 0x1#4
  | .dmaAdvance => 0x2#4
  | .read => 0x3#4
  | .readUntil => 0x4#4
  | .syncToByte => 0x5#4
  | .isEmpty => 0x8#4
  | .isFull => 0x9#4
  | .dataCount => 0xA#4
  | .emptyCount => 0xB#4
  | .contigDataCount => 0xC#4
  | .contigEmptyCount => 0xD#4
  | .fullCount => 0xE#4
  | .status => 0xF#4

/-- The opcode with a given OPC field; 0x6 and 0x7 are reserved (rules R78, R79). -/
def Opcode.ofCode (c : BitVec 4) : Option Opcode :=
  match c.toNat with
  | 0x0 => some .init
  | 0x1 => some .write
  | 0x2 => some .dmaAdvance
  | 0x3 => some .read
  | 0x4 => some .readUntil
  | 0x5 => some .syncToByte
  | 0x8 => some .isEmpty
  | 0x9 => some .isFull
  | 0xA => some .dataCount
  | 0xB => some .emptyCount
  | 0xC => some .contigDataCount
  | 0xD => some .contigEmptyCount
  | 0xE => some .fullCount
  | 0xF => some .status
  | _ => none

/-- The match value of each opcode (second table of rule R78). -/
def Opcode.matchWord : Opcode → CommandWord
  | .init => 0x0000000000000000#64
  | .write => 0x0000000000000001#64
  | .dmaAdvance => 0x0000000000000002#64
  | .read => 0x0000000000000003#64
  | .readUntil => 0x0000000000000004#64
  | .syncToByte => 0x0000000000000005#64
  | .isEmpty => 0x0000000000000008#64
  | .isFull => 0x0000000000000009#64
  | .dataCount => 0x000000000000000A#64
  | .emptyCount => 0x000000000000000B#64
  | .contigDataCount => 0x000000000000000C#64
  | .contigEmptyCount => 0x000000000000000D#64
  | .fullCount => 0x000000000000000E#64
  | .status => 0x000000000000000F#64

/-- The mask of each opcode (second table of rule R78): the bits that must equal the match value. -/
def Opcode.maskWord : Opcode → CommandWord
  | .init => 0xFFFFFFFFFFFFFFFF#64
  | .write => 0x00000000FFFFFFFF#64
  | .dmaAdvance => 0x00000000FFFFFFFF#64
  | .read => 0x00000000FFFFFFFF#64
  | .readUntil => 0x00000000FFFF00FF#64
  | .syncToByte => 0xFFFFFFFFFFFF00FF#64
  | .isEmpty => 0xFFFFFFFFFFFFFFFF#64
  | .isFull => 0xFFFFFFFFFFFFFFFF#64
  | .dataCount => 0xFFFFFFFFFFFFFFFF#64
  | .emptyCount => 0xFFFFFFFFFFFFFFFF#64
  | .contigDataCount => 0xFFFFFFFFFFFFFFFF#64
  | .contigEmptyCount => 0xFFFFFFFFFFFFFFFF#64
  | .fullCount => 0xFFFFFFFFFFFFFFFF#64
  | .status => 0xFFFFFFFFFFFFFFFF#64

/-- Which port may issue which opcode, `Ports(opc)` (rule R70): WRITE and DMA_ADVANCE on P only, READ, READ_UNTIL and
SYNC_TO_BYTE on C only, everything else on both. -/
def Opcode.legalOn : Opcode → Port → Bool
  | .write, p => p = .producer
  | .dmaAdvance, p => p = .producer
  | .read, p => p = .consumer
  | .readUntil, p => p = .consumer
  | .syncToByte, p => p = .consumer
  | .init, _ => true
  | .isEmpty, _ => true
  | .isFull, _ => true
  | .dataCount, _ => true
  | .emptyCount, _ => true
  | .contigDataCount, _ => true
  | .contigEmptyCount, _ => true
  | .fullCount, _ => true
  | .status, _ => true

/-- OPC = word[3:0] (rule R73). -/
def fieldOpc (w : CommandWord) : BitVec 4 := w.extractLsb' 0 4

/-- B = word[15:8] (rules R73, R76). -/
def fieldB (w : CommandWord) : Byte := w.extractLsb' 8 8

/-- N / V = word[63:32] (rules R73, R76). -/
def fieldN (w : CommandWord) : OperandWord := w.extractLsb' 32 32

/-- The instruction of an opcode with its operands taken from the word (rule R77: which opcode uses which field). -/
def Opcode.instr (op : Opcode) (w : CommandWord) : Instr :=
  match op with
  | .init => .init
  | .write => .write (fieldN w)
  | .dmaAdvance => .dmaAdvance (fieldN w)
  | .read => .read (fieldN w)
  | .readUntil => .readUntil (fieldN w) (fieldB w)
  | .syncToByte => .syncToByte (fieldB w)
  | .isEmpty => .isEmpty
  | .isFull => .isFull
  | .dataCount => .dataCount
  | .emptyCount => .emptyCount
  | .contigDataCount => .contigDataCount
  | .contigEmptyCount => .contigEmptyCount
  | .fullCount => .fullCount
  | .status => .status

/-- The opcode of an instruction. -/
def Instr.opcode : Instr → Opcode
  | .init => .init
  | .write _ => .write
  | .dmaAdvance _ => .dmaAdvance
  | .read _ => .read
  | .readUntil _ _ => .readUntil
  | .syncToByte _ => .syncToByte
  | .isEmpty => .isEmpty
  | .isFull => .isFull
  | .dataCount => .dataCount
  | .emptyCount => .emptyCount
  | .contigDataCount => .contigDataCount
  | .contigEmptyCount => .contigEmptyCount
  | .fullCount => .fullCount
  | .status => .status

/-- The number of payload bytes the command carries: exactly N for WRITE, 0 for every other opcode (rule R80). -/
def Instr.payloadLength : Instr → Nat
  | .write n => n.toNat
  | _ => 0

/-- Decode a command word (rules R78, R79, R81): OPC selects the opcode, then the word must equal the match value under
the opcode's mask. -/
def decodeWord (w : CommandWord) : Except Reject Instr :=
  match Opcode.ofCode (fieldOpc w) with
  | none => .error .reservedOpcode
  | some op => if w &&& op.maskWord = op.matchWord then .ok (op.instr w) else .error (.reservedField op)

/-- The number that a byte sequence carries, least significant byte first (rule R75). -/
def natOfBytes : List Byte → Nat
  | [] => 0
  | b :: bs => b.toNat + 256 * natOfBytes bs

/-- `k` bytes of a number, bits 7:0 first (rule R75). -/
def bytesOfNat : Nat → Nat → List Byte
  | 0, _ => []
  | k + 1, n => BitVec.ofNat 8 n :: bytesOfNat k (n / 256)

/-- Decode the command word at the head of a byte sequence; answers the instruction and the bytes after the word, which
start with its payload (rules R75, R80). -/
def decodeBytes (bs : List Byte) : Except ByteReject (Instr × List Byte) :=
  if bs.length < 8 then .error .truncated
  else match decodeWord (BitVec.ofNat 64 (natOfBytes (bs.take 8))) with
    | .ok i => .ok (i, bs.drop 8)
    | .error r => .error (.word r)

/-- The instruction the decoder reads from a table word of `nbits` bits, laid out as bytes as the transport sends them
(rule R75). -/
def decodeTableWord (nbits w : Nat) : Option Instr :=
  match decodeBytes (bytesOfNat 8 (w % 2 ^ nbits)) with
  | .ok (i, _) => some i
  | .error _ => none

/-- The command word from its fields, most significant first: N/V, RSV1 = 0, B, RSV0 = 0, OPC (rule R73). -/
def packFields (n : OperandWord) (b : Byte) (opc : BitVec 4) : CommandWord :=
  n ++ 0#16 ++ b ++ 0#4 ++ opc

/-- Encode an instruction: the fields it uses, every other bit zero (rules R73, R77). -/
def encode : Instr → CommandWord
  | .init => packFields 0 0 Opcode.init.code
  | .write n => packFields n 0 Opcode.write.code
  | .dmaAdvance v => packFields v 0 Opcode.dmaAdvance.code
  | .read n => packFields n 0 Opcode.read.code
  | .readUntil max delim => packFields max delim Opcode.readUntil.code
  | .syncToByte marker => packFields 0 marker Opcode.syncToByte.code
  | .isEmpty => packFields 0 0 Opcode.isEmpty.code
  | .isFull => packFields 0 0 Opcode.isFull.code
  | .dataCount => packFields 0 0 Opcode.dataCount.code
  | .emptyCount => packFields 0 0 Opcode.emptyCount.code
  | .contigDataCount => packFields 0 0 Opcode.contigDataCount.code
  | .contigEmptyCount => packFields 0 0 Opcode.contigEmptyCount.code
  | .fullCount => packFields 0 0 Opcode.fullCount.code
  | .status => packFields 0 0 Opcode.status.code

/-- The number of payload bytes that follow a command word on a byte transport, found from OPC and N alone (rule R80).
A word that is no command is followed by none, except that OPC alone makes a WRITE. -/
def framedPayloadLength (w : CommandWord) : Nat :=
  if fieldOpc w = Opcode.write.code then (fieldN w).toNat else 0

/-- A command as bytes: the word, bits 7:0 first, then the payload in order (rule R75). -/
def frameCommand (c : Command) : List Byte := bytesOfNat 8 c.word.toNat ++ c.payload

/-- Take one command off a byte stream: 8 bytes of word and then as many payload bytes as OPC and N say (rules R75,
R80); none while the stream holds too few bytes. -/
def unframeCommand (bs : List Byte) : Option (Command × List Byte) :=
  let w : CommandWord := BitVec.ofNat 64 (natOfBytes (bs.take 8))
  let body := bs.drop 8
  let n := framedPayloadLength w
  if bs.length < 8 ∨ body.length < n then none
  else some ({ word := w, payload := body.take n }, body.drop n)

/-- The RESULT and DATA parts of a response as bytes: the result word, bits 7:0 first, then DATA in emitted order
(rule R75). The spec gives the ERR bit no place in a byte stream. -/
def frameAnswer (a : Answer) : List Byte := bytesOfNat 4 a.result.toNat ++ a.data

end Sys2Proof
end

