-- ==== Sys2Proof/Config.lean ====
section
/-! DEFINITION. The build-time parameters of the block (rules R6 to R10, R68), fixed for the block's lifetime (rule
R38), and what makes a configuration an example of this hardware (rule R201). The spec takes them as model arguments:
they are plain data that every claim quantifies over, and nothing here is a value the model chose except
`Config.reference`. No value of this hardware is left undefined by the spec, so there is no free value here. -/

namespace Sys2Proof

/-- `P_PLATFORM_MAP` (rule R68): where the two ports and the storage sit on a platform bus. The spec leaves it open and
no rule reads it. DESIGN CHOICE (notes/assumptions/3.md): three bus addresses. -/
structure PlatformMap where
  portP   : Nat
  portC   : Nat
  storage : Nat
  deriving DecidableEq, Repr

/-- The configuration: `P_SIZE_LOG2` (R6), `P_CURSOR_WIDTH` = W (R8), `P_NAME` (R10), `P_PLATFORM_MAP` (R68). -/
structure Config where
  sizeLog2    : Nat
  cursorWidth : Nat
  name        : String
  platform    : PlatformMap
  deriving DecidableEq, Repr

/-- `SIZE = 2^P_SIZE_LOG2`, the capacity of the storage array in bytes (rule R6). -/
def Config.size (c : Config) : Nat := 2 ^ c.sizeLog2

/-- `MASK = SIZE - 1` (rule R7). -/
def Config.mask (c : Config) : Nat := c.size - 1

/-- `2^W`, what the cursors are reduced modulo (rules R8, R11). -/
def Config.cursorModulus (c : Config) : Nat := 2 ^ c.cursorWidth

/-- A configuration that is an example of this hardware: `1 <= P_SIZE_LOG2 <= 31` and `W >= P_SIZE_LOG2 + 1` (rules
R6, R8, R201). -/
abbrev Config.Valid (c : Config) : Prop :=
  1 ≤ c.sizeLog2 ∧ c.sizeLog2 ≤ 31 ∧ c.sizeLog2 + 1 ≤ c.cursorWidth

/-- The configuration of the state after power-up and reset. W = 32 is the spec's reference value (rule R8).
DESIGN CHOICE (notes/assumptions/2.md): SIZE = 8, an empty label and an all-zero platform map, where the spec gives
none. Claims are about every state, hence about every configuration. -/
def Config.reference : Config :=
  { sizeLog2 := 3, cursorWidth := 32, name := "", platform := { portP := 0, portC := 0, storage := 0 } }

end Sys2Proof
end

