-- ==== Sys2Proof/Machine/State.lean ====
section
/-! DEFINITION. The state of the machine as plain data: the block's registers and storage (rule R21), its
configuration (rules R6 to R10, R68; constant, rule R38), the interface the commands travel through (rules R71, R72)
and the environment's part of the total order of steps (rule R58). -/

namespace Sys2Proof.Machine

/-- Storage as data: the bytes at the listed offsets, offsets strictly rising, no entry equal to what an unlisted offset
reads as (Machine/Ops.lean, `Memory.read`). -/
abbrev Memory := List Host.Cell

/-- The part of the command being executed that is not in its decoded instruction: the port it arrived on and its
payload (rule R71). -/
structure Arrival where
  port    : Port
  payload : List Byte
  deriving DecidableEq, Repr

/-- The machine's state. -/
structure State where
  /-- The build-time parameters; no step changes them (rule R38). -/
  cfg      : Config
  /-- `write`, a W-bit register (rule R24): a number below 2^W (rule R11). -/
  write    : Nat
  /-- `read`, a W-bit register (rule R25). -/
  read     : Nat
  /-- `dma_cnt`, a P_SIZE_LOG2-bit register (rule R26). -/
  dmaCnt   : Nat
  /-- `full_cnt`, 32 bits (rules R9, R33). -/
  fullCnt  : BitVec 32
  /-- `FAULT`, one sticky bit (rule R34). -/
  fault    : Bool
  /-- `CAUSE`, 4 bits (rules R34, R204). -/
  cause    : BitVec 4
  /-- The storage array (rule R35). -/
  storage  : Memory
  /-- Commands issued on port P and not yet executed, oldest first (rule R72). -/
  queueP   : List Command
  /-- Commands issued on port C and not yet executed, oldest first (rule R72). -/
  queueC   : List Command
  /-- The model's own: port and payload of the command taken last. `serve` writes it before anything reads it. -/
  arrival  : Arrival
  /-- Every response given so far, oldest first (rule R71). -/
  answers  : List Answer
  /-- What happens next in the total order of rule R58, as the environment has it. -/
  schedule : List Event
  deriving DecidableEq, Repr

/-- Why the machine stops with a fault. A contract violation is NOT here: it is the sticky FAULT of rule R205, a next
state. -/
inductive Fault where
  /-- Raised by a scheduled DMA peripheral store (`Machine/Ports.lean`, `dmaStoreEvent`) to an offset outside
  `0..MASK`: the address space has no such offset (rules R50, R60). Safe: the spec gives no such store. -/
  | noSuchOffset
  deriving DecidableEq, Repr

/-- Why the machine gives no meaning. -/
inductive Refusal where
  /-- Raised by `exec` for an instruction without a meaning. Safe. No arm raises it. -/
  | notModelled (mnemonic : String)
  /-- Raised by `step` and by every meaning when the configuration is not an example of this hardware (rule R201: a
  model must refuse it and give it no step). Safe. -/
  | invalidConfiguration
  deriving DecidableEq, Repr

/-- The machine right after power-up and hardware reset (rule R40): every register 0, nothing issued, nothing answered,
an empty schedule. Rule R40 leaves storage arbitrary at power-up: here nothing is listed. DESIGN CHOICE
(notes/assumptions/1.md and 2.md): what unlisted offsets read as, and the configuration. -/
def State.reset : State :=
  { cfg := Config.reference
    write := 0
    read := 0
    dmaCnt := 0
    fullCnt := 0
    fault := false
    cause := 0
    storage := []
    queueP := []
    queueC := []
    arrival := { port := .producer, payload := [] }
    answers := []
    schedule := [] }

end Sys2Proof.Machine
end

