-- ==== Sys2Proof/Machine/Ops.lean ====
section
/-! DEFINITION. The named operations over registers, storage and the response channel, fault entry (rule R205) and
hardware reset (rule R230). -/

namespace Sys2Proof.Machine

/-- One step's outcome, at the model's own types. -/
abbrev Result := Host.Outcome State Fault Refusal

/-! ### Register arithmetic (rule R11) -/

/-- `a +_W b`: the sum reduced modulo the register's modulus. -/
def wrapAdd (modulus a b : Nat) : Nat := (a + b) % modulus

/-- `(a - b) mod m`, always in `[0, m)`, also for a negative difference (rule R11). -/
def wrapSub (modulus a b : Nat) : Nat := (((a : Int) - (b : Int)) % (modulus : Int)).toNat

/-- `c +_W i` for a cursor of this configuration. -/
def State.cursorAdd (s : State) (c i : Nat) : Nat := wrapAdd s.cfg.cursorModulus c i

/-- `a -_W b` for cursors of this configuration. -/
def State.cursorSub (s : State) (a b : Nat) : Nat := wrapSub s.cfg.cursorModulus a b

/-- `c & MASK`: the physical offset of a cursor (rules R7, R28). -/
def State.offset (s : State) (c : Nat) : Nat := c &&& s.cfg.mask

/-! ### Storage (rules R35, R50, R52) -/

/-- What an offset that storage does not list reads as. Rule R40 leaves the power-up contents arbitrary. DESIGN CHOICE
(notes/assumptions/1.md): 0x00; every array of bytes is still the storage of some state. -/
def Memory.unlisted : Byte := 0x00#8

/-- `MemRead(off, 1)` (rule R14). -/
def Memory.read : Memory → Nat → Byte
  | [], _ => Memory.unlisted
  | (k, v) :: rest, off => if k = off then v else Memory.read rest off

/-- `MemWrite(off, 1, b)` (rule R14), keeping the canonical form. -/
def Memory.write : Memory → Nat → Byte → Memory
  | [], off, b => if b = Memory.unlisted then [] else [(off, b)]
  | (k, v) :: rest, off, b =>
    if off < k then
      if b = Memory.unlisted then (k, v) :: rest else (off, b) :: (k, v) :: rest
    else if off = k then
      if b = Memory.unlisted then rest else (off, b) :: rest
    else (k, v) :: Memory.write rest off b

/-- The canonical form: offsets strictly rising, and no entry equal to what an unlisted offset reads as. -/
abbrev Memory.wf (m : Memory) : Prop :=
  m.Pairwise (fun a b => a.1 < b.1) ∧ ∀ c ∈ m, c.2 ≠ Memory.unlisted

/-- The byte at a physical offset. -/
def State.load (s : State) (off : Nat) : Byte := Memory.read s.storage off

/-- Set the byte at a physical offset. -/
def State.store (s : State) (off : Nat) (b : Byte) : State := { s with storage := Memory.write s.storage off b }

/-! ### Responses (rules R71, R74) -/

/-- Answer the command being executed with `ERR = 0`, RESULT and DATA. -/
def State.answer (s : State) (result : ResultWord) (data : List Byte) : State :=
  { s with answers := s.answers ++ [{ port := s.arrival.port, err := false, result := result, data := data }] }

/-- Answer the command being executed with `ERR = 1`, RESULT = 0 and no DATA. -/
def State.answerErr (s : State) : State :=
  { s with answers := s.answers ++ [{ port := s.arrival.port, err := true, result := 0, data := [] }] }

/-- `return n` with a count as the result word (rules R14, R82). -/
def resultOfNat (n : Nat) : ResultWord := BitVec.ofNat 32 n

/-- A condition as a result word: 1 for true, 0 for false (rule R82). -/
def resultOfBool (b : Bool) : ResultWord := if b then 1 else 0

/-! ### Fault entry (rules R204, R205) -/

/-- The contract violations that are detected at call time (rule R204). -/
inductive Cause where
  | zeroLengthWrite
  | zeroLengthRead
  | zeroLengthReadUntil
  | reservedOpcode
  | reservedField
  | roleViolation
  | payloadLength
  deriving DecidableEq, Repr

/-- The CAUSE code of each violation (rule R204). -/
def Cause.code : Cause → BitVec 4
  | .zeroLengthWrite => 0x1#4
  | .zeroLengthRead => 0x2#4
  | .zeroLengthReadUntil => 0x3#4
  | .reservedOpcode => 0x4#4
  | .reservedField => 0x5#4
  | .roleViolation => 0x6#4
  | .payloadLength => 0x7#4

/-- `raise ContractFault(cause)` (rule R205): the one exception of this hardware. FAULT and CAUSE are written, the
response is `ERR = 1`, and nothing else changes. The block has no return from it (rule R209): hardware reset alone
clears it. -/
def raiseFault (c : Cause) (s : State) : Result :=
  .next { s with fault := true, cause := c.code }.answerErr

/-! ### Waiting commands (rule R72) -/

/-- The commands waiting on a port, oldest first. -/
def State.queue (s : State) : Port → List Command
  | .producer => s.queueP
  | .consumer => s.queueC

/-- Replace the commands waiting on a port. -/
def State.setQueue (s : State) (p : Port) (q : List Command) : State :=
  match p with
  | .producer => { s with queueP := q }
  | .consumer => { s with queueC := q }

/-- Latch port and payload of the command that is taken for execution. -/
def State.take (s : State) (p : Port) (payload : List Byte) : State :=
  { s with arrival := { port := p, payload := payload } }

/-! ### Hardware reset (rules R40, R230) -/

/-- Reset: the registers take the values of rule R40, FAULT and CAUSE are cleared, storage keeps its bytes, and the
commands that had not executed are dropped without a response. -/
def State.hardReset (s : State) : State :=
  { s with
    write := 0
    read := 0
    dmaCnt := 0
    fullCnt := 0
    fault := false
    cause := 0
    queueP := []
    queueC := [] }

end Sys2Proof.Machine
end

