-- ==== Sys2Proof/Machine/Flags.lean ====
section
/-! DEFINITION. What the block computes from its cursors. It stores no empty flag, no full flag and no condition code
(rule R32): counts, emptiness and fullness are functions of `write` and `read`, and the STATUS word is assembled from
FAULT, CAUSE and the configuration (rule R118). -/

namespace Sys2Proof.Machine

/-- `pw = write & MASK`, the physical write offset (rule R28). -/
def State.pw (s : State) : Nat := s.offset s.write

/-- `pr = read & MASK`, the physical read offset (rule R28). -/
def State.pr (s : State) : Nat := s.offset s.read

/-- DataCount: `(write -_W read) & MASK` (rule R27). -/
def State.count (s : State) : Nat := s.offset (s.cursorSub s.write s.read)

/-- EmptyCount: `MASK - count` (rule R29). -/
def State.free (s : State) : Nat := s.cfg.mask - s.count

/-- IS_EMPTY: `pw = pr` (rule R110). -/
def State.isEmpty (s : State) : Bool := s.pw = s.pr

/-- IS_FULL: `((write +_W 1) & MASK) = pr` (rule R111; the source's literal `read + 1` formula is not used,
90_conflicts.md C1). -/
def State.isFull (s : State) : Bool := s.offset (s.cursorAdd s.write 1) = s.pr

/-- The readable run from `pr` before the end of the array or the end of the unread data (rule R114). -/
def State.contigData (s : State) : Nat := min s.count (s.cfg.size - s.pr)

/-- The writable run from `pw` before the end of the array or the reserved slot (rule R115, 90_conflicts.md C8). -/
def State.contigEmpty (s : State) : Nat := min s.free (s.cfg.size - s.pw)

/-- The STATUS word (rule R118): `{ 0 (19 bits), P_SIZE_LOG2 (5), CAUSE (4), 0 (3), FAULT (1) }`. -/
def State.statusWord (s : State) : ResultWord :=
  0#19 ++ BitVec.ofNat 5 s.cfg.sizeLog2 ++ s.cause ++ 0#3 ++ BitVec.ofBool s.fault

end Sys2Proof.Machine
end

