-- ==== Sys2Proof/Machine/Operands.lean ====
section
/-! DEFINITION. The operand forms (rules R13, R76): the count N, the signed sample V, the byte B and the payload; the
byte runs a data command moves (rules R52 to R54); and the part of Decode a well-formed command still goes through when
it reaches its rule (rule R81). -/

namespace Sys2Proof.Machine

/-- `N = word[63:32]` as an unsigned number (rule R76). -/
def operandN (n : OperandWord) : Nat := n.toNat

/-- `V = sext_32(word[63:32])`, a signed number (rules R13, R76). -/
def operandV (v : OperandWord) : Int := v.toInt

/-- The `m` bytes at logical indices `0..m-1` from cursor `c`, in that order: index `i` is at `(c +_W i) & MASK`
(rules R53, R54). -/
def State.loadRun (s : State) (c m : Nat) : List Byte :=
  (List.range m).map fun i => s.load (s.offset (s.cursorAdd c i))

/-- Store bytes at logical indices `i, i+1, ...` from cursor `c`, in order (rules R53, R54). -/
def State.storeRunFrom (s : State) (c : Nat) : Nat → List Byte → State
  | _, [] => s
  | i, b :: bs => (s.store (s.offset (s.cursorAdd c i)) b).storeRunFrom c (i + 1) bs

/-- The loop of READ_UNTIL over the scanned bytes: emit each byte, and stop after the first that equals the delimiter
(rule R155). -/
def emitUntil (delim : Byte) : List Byte → List Byte
  | [] => []
  | b :: bs => if b = delim then [b] else b :: emitUntil delim bs

/-- How many bytes SYNC_TO_BYTE drops: the least index of a byte equal to the marker, or all of them (rule R190). -/
def dropsBefore (marker : Byte) : List Byte → Nat
  | [] => 0
  | b :: bs => if b = marker then 0 else dropsBefore marker bs + 1

/-- The clamp of a countdown sample into `[0, SIZE]` (rule R170). -/
def clampSample (size : Nat) (v : Int) : Nat :=
  (if v < 0 then 0 else if v > (size : Int) then (size : Int) else v).toNat

/-- `produced = (SIZE - c) mod SIZE` of a sample (rules R170, R171). -/
def producedOf (size : Nat) (v : Int) : Nat := (size - clampSample size v) % size

/-- What rule R81 asks of a decoded command before its own rule runs, in that order: no fault is recorded, the opcode
is legal on the port, the payload has the command's length. The bit checks of rule R81 are the decoder's. A
configuration that is no example of this hardware has no step (rule R201). -/
def accept (i : Instr) (body : State → Result) (s : State) : Result :=
  if ¬ s.cfg.Valid then .refused .invalidConfiguration
  else if s.fault = true then .next s.answerErr
  else if i.opcode.legalOn s.arrival.port = false then raiseFault .roleViolation s
  else if s.arrival.payload.length ≠ i.payloadLength then raiseFault .payloadLength s
  else body s

end Sys2Proof.Machine
end

