-- ==== Sys2Proof/Machine/Commit.lean ====
section
/-! DEFINITION. `Commit(m)` (rule R131): the cursor advance with the overwrite policy that WRITE and DMA_ADVANCE
share. -/

namespace Sys2Proof.Machine

/-- The overwrite event (rules R131, R132): `read` jumps to `write -_W MASK` with the new `write`, and `full_cnt` goes up
by one, modulo 2^32. -/
def State.overwriteOldest (s : State) : State :=
  { s with read := s.cursorSub s.write s.cfg.mask, fullCnt := s.fullCnt + 1 }

/-- `write <- write +_W m`. -/
def State.advanceWrite (s : State) (m : Nat) : State := { s with write := s.cursorAdd s.write m }

/-- `read <- read +_W m`. -/
def State.advanceRead (s : State) (m : Nat) : State := { s with read := s.cursorAdd s.read m }

/-- `Commit(m)`: the overwrite fires when `m` exceeds the free slots before the commit (rule R131). -/
def State.commit (s : State) (m : Nat) : State :=
  if m > s.free then (s.advanceWrite m).overwriteOldest else s.advanceWrite m

end Sys2Proof.Machine
end

