-- ==== Sys2Proof/Machine/Construction.lean ====
section
/-! DEFINITION. Construction: INIT (40_construction.md). -/

namespace Sys2Proof.Machine

/-- INIT (rule R100): the cursors, `dma_cnt` and `full_cnt` become 0. Storage, FAULT and CAUSE are not written. -/
def execInit (s : State) : Result :=
  accept .init (fun s => .next ({ s with write := 0, read := 0, dmaCnt := 0, fullCnt := 0 }.answer 0 [])) s

end Sys2Proof.Machine
end

