-- ==== Sys2Proof/Machine/Dma.lean ====
section
/-! DEFINITION. DMA_ADVANCE (44_dma.md). -/

namespace Sys2Proof.Machine

/-- `dma_cnt <- produced; Commit(delta)` with `delta = (produced - dma_cnt) mod SIZE` (rules R170 to R174). -/
def State.reconcile (s : State) (produced : Nat) : State :=
  { s with dmaCnt := produced }.commit (wrapSub s.cfg.size produced s.dmaCnt)

/-- DMA_ADVANCE (rule R170): every sample V is accepted, and storage is not touched. -/
def execDmaAdvance (v : OperandWord) (s : State) : Result :=
  accept (.dmaAdvance v) (fun s =>
    .next ((s.reconcile (producedOf s.cfg.size (operandV v))).answer 0 [])) s

end Sys2Proof.Machine
end

