-- ==== Sys2Proof/Machine/Queries.lean ====
section
/-! DEFINITION. The query commands (41_queries.md). None of them writes any state but the response channel. -/

namespace Sys2Proof.Machine

/-- IS_EMPTY (rule R110). -/
def execIsEmpty (s : State) : Result :=
  accept .isEmpty (fun s => .next (s.answer (resultOfBool s.isEmpty) [])) s

/-- IS_FULL (rule R111). -/
def execIsFull (s : State) : Result :=
  accept .isFull (fun s => .next (s.answer (resultOfBool s.isFull) [])) s

/-- DATA_COUNT (rule R112). -/
def execDataCount (s : State) : Result :=
  accept .dataCount (fun s => .next (s.answer (resultOfNat s.count) [])) s

/-- EMPTY_COUNT (rule R113). -/
def execEmptyCount (s : State) : Result :=
  accept .emptyCount (fun s => .next (s.answer (resultOfNat s.free) [])) s

/-- CONTIG_DATA_COUNT (rule R114). -/
def execContigDataCount (s : State) : Result :=
  accept .contigDataCount (fun s => .next (s.answer (resultOfNat s.contigData) [])) s

/-- CONTIG_EMPTY_COUNT (rule R115). -/
def execContigEmptyCount (s : State) : Result :=
  accept .contigEmptyCount (fun s => .next (s.answer (resultOfNat s.contigEmpty) [])) s

/-- FULL_COUNT (rule R117). -/
def execFullCount (s : State) : Result :=
  accept .fullCount (fun s => .next (s.answer s.fullCnt [])) s

/-- STATUS (rules R118, R81): the one command that also executes while FAULT is 1, if its payload is empty. -/
def execStatus (s : State) : Result :=
  if s.cfg.Valid ∧ s.fault = true ∧ s.arrival.payload = [] then .next (s.answer s.statusWord [])
  else accept .status (fun s => .next (s.answer s.statusWord [])) s

end Sys2Proof.Machine
end

