-- ==== Sys2Proof/Machine/Read.lean ====
section
/-! DEFINITION. READ and READ_UNTIL (43_read.md). -/

namespace Sys2Proof.Machine

/-- Emit bytes that start at `read` and consume them: DATA is the bytes, RESULT and the advance of `read` are their
number (rules R150, R155). -/
def State.consume (s : State) (data : List Byte) : State :=
  (s.advanceRead data.length).answer (resultOfNat data.length) data

/-- READ (rule R150): up to N unread bytes, clamped to the count. -/
def execRead (n : OperandWord) (s : State) : Result :=
  accept (.read n) (fun s =>
    if operandN n = 0 then raiseFault .zeroLengthRead s
    else .next (s.consume (s.loadRun s.read (min (operandN n) s.count)))) s

/-- READ_UNTIL (rule R155): unread bytes up to and including the first that equals the delimiter, within the scan
budget `min(N, count)`. -/
def execReadUntil (max : OperandWord) (delim : Byte) (s : State) : Result :=
  accept (.readUntil max delim) (fun s =>
    if operandN max = 0 then raiseFault .zeroLengthReadUntil s
    else .next (s.consume (emitUntil delim (s.loadRun s.read (min (operandN max) s.count))))) s

end Sys2Proof.Machine
end

