-- ==== Sys2Proof/Machine/Resync.lean ====
section
/-! DEFINITION. SYNC_TO_BYTE (45_resync.md). -/

namespace Sys2Proof.Machine

/-- SYNC_TO_BYTE (rule R190): `read` advances past the unread bytes before the first marker, or past all of them. The
dropped bytes are not counted. -/
def execSyncToByte (marker : Byte) (s : State) : Result :=
  accept (.syncToByte marker) (fun s =>
    .next ((s.advanceRead (dropsBefore marker (s.loadRun s.read s.count))).answer 0 [])) s

end Sys2Proof.Machine
end

