-- ==== Sys2Proof/Machine/Write.lean ====
section
/-! DEFINITION. WRITE (42_write.md). -/

namespace Sys2Proof.Machine

/-- The accepted WRITE: store the payload from `write`, then commit its length (rule R135). -/
def State.writePayload (s : State) (n : Nat) : State :=
  (s.storeRunFrom s.write 0 s.arrival.payload).commit n

/-- WRITE (rule R135): N = 0 is a contract violation, N >= SIZE is rejected with RESULT 0 and no effect (rule R136),
and every other N stores the payload, commits it and answers N. -/
def execWrite (n : OperandWord) (s : State) : Result :=
  accept (.write n) (fun s =>
    if operandN n = 0 then raiseFault .zeroLengthWrite s
    else if operandN n ≥ s.cfg.size then .next (s.answer 0 [])
    else .next ((s.writePayload (operandN n)).answer (resultOfNat (operandN n)) [])) s

end Sys2Proof.Machine
end

