-- ==== Sys2Proof/Machine/Dispatch.lean ====
section
/-! DEFINITION. exec: one arm per command, each one call of that command's meaning. -/

namespace Sys2Proof.Machine

def exec (i : Instr) (s : State) : Host.Outcome State Fault Refusal :=
  match i with
  | .init => Sys2Proof.Machine.execInit s
  | .write n => Sys2Proof.Machine.execWrite n s
  | .dmaAdvance v => Sys2Proof.Machine.execDmaAdvance v s
  | .read n => Sys2Proof.Machine.execRead n s
  | .readUntil max delim => Sys2Proof.Machine.execReadUntil max delim s
  | .syncToByte marker => Sys2Proof.Machine.execSyncToByte marker s
  | .isEmpty => Sys2Proof.Machine.execIsEmpty s
  | .isFull => Sys2Proof.Machine.execIsFull s
  | .dataCount => Sys2Proof.Machine.execDataCount s
  | .emptyCount => Sys2Proof.Machine.execEmptyCount s
  | .contigDataCount => Sys2Proof.Machine.execContigDataCount s
  | .contigEmptyCount => Sys2Proof.Machine.execContigEmptyCount s
  | .fullCount => Sys2Proof.Machine.execFullCount s
  | .status => Sys2Proof.Machine.execStatus s

end Sys2Proof.Machine
end

