-- ==== Sys2Proof/Machine/Ports.lean ====
section
/-! DEFINITION. How commands reach the block and what the other agents do to it: issuing on a port and taking the oldest
waiting command (rule R72), the checks of rule R81 on a word that is no command, the DMA peripheral's store (rule R60)
and hardware reset (rule R230). -/

namespace Sys2Proof.Machine

/-- Rule R81 on a word that does not decode: while FAULT is 1 nothing changes; then RESERVED_OPCODE, then
ROLE_VIOLATION, then RESERVED_FIELD. -/
def rejectWord (r : Reject) (s : State) : Result :=
  if ¬ s.cfg.Valid then .refused .invalidConfiguration
  else if s.fault = true then .next s.answerErr
  else match r with
    | .reservedOpcode => raiseFault .reservedOpcode s
    | .reservedField op =>
      if op.legalOn s.arrival.port = false then raiseFault .roleViolation s
      else raiseFault .reservedField s

/-- Decode the word and run the command, or reject the word (rule R81). -/
def runWord (w : CommandWord) (s : State) : Result :=
  match decodeWord w with
  | .ok i => exec i s
  | .error r => rejectWord r s

/-- The block takes the oldest command waiting on a port and answers it in one step (rules R72, R246). With nothing
waiting there, nothing happens. -/
def serveEvent (p : Port) (s : State) : Result :=
  match s.queue p with
  | [] => .next s
  | c :: rest => runWord c.word ((s.setQueue p rest).take p c.payload)

/-- The agent of a port issues a command: it waits behind those issued before it (rule R72). -/
def issueEvent (p : Port) (c : Command) (s : State) : Result :=
  .next (s.setQueue p (s.queue p ++ [c]))

/-- `DmaStore(off, b)` for an offset of the storage array, whatever FAULT holds (rules R60, R206). -/
def dmaStoreEvent (off : Nat) (b : Byte) (s : State) : Result :=
  if off < s.cfg.size then .next (s.store off b) else .fault .noSuchOffset

/-- One event of the total order (rule R58). -/
def runEvent (e : Event) (s : State) : Result :=
  match e with
  | .issue p c => issueEvent p c s
  | .serve p => serveEvent p s
  | .dmaStore off b => dmaStoreEvent off b s
  | .reset => .next s.hardReset

/-- The next event of the schedule, taken off it. With none the block waits and nothing changes (rules R218, R231). A
configuration that is no example of this hardware has no step (rule R201). -/
def runSchedule (s : State) : Result :=
  if ¬ s.cfg.Valid then .refused .invalidConfiguration
  else match s.schedule with
    | [] => .next s
    | e :: rest => runEvent e { s with schedule := rest }

/-- The port a table word is presented on: C for an opcode that is legal on C only, P otherwise. -/
def presentPort (w : CommandWord) : Port :=
  match Opcode.ofCode (fieldOpc w) with
  | some op => if op.legalOn .producer then .producer else .consumer
  | none => .producer

/-- The command whose word is given and whose payload is zero bytes, as many as the word says. -/
def presentCommand (w : CommandWord) : Command :=
  { word := w, payload := List.replicate (framedPayloadLength w) 0 }

/-- Put a command at the head of its port's waiting commands and its execution at the head of the schedule, so that the
next step runs exactly it. -/
def State.present (s : State) (w : CommandWord) : State :=
  let p := presentPort w
  let q := s.setQueue p (presentCommand w :: s.queue p)
  { q with schedule := .serve p :: q.schedule }

end Sys2Proof.Machine
end

