-- ==== Sys2Proof/Machine/Step.lean ====
section
/-! DEFINITION. One step of the machine, and the placing of a word where the next step takes it from. -/

namespace Sys2Proof.Machine

/-- One step: the next event of the schedule (rule R58). -/
def step (s : State) : Host.Outcome State Fault Refusal := runSchedule s

/-- `s` with the instruction of a table word issued and about to be taken (notes/assumptions/6.md). The block fetches
nothing (rule R66): commands come from the agents, outside the machine. -/
def State.withFetchWord (s : State) (nbits w : Nat) : State := s.present (BitVec.ofNat 64 (w % 2 ^ nbits))

end Sys2Proof.Machine
end

