-- ==== Sys2Proof/Machine/Assembler.lean ====
section
/-! DEFINITION. The assembler of rule R85: from one line of text to the port and the command it stands for. The machine
does not use it. Letter case, white space and what a line without a command gives are DESIGN CHOICE
(notes/assumptions/8.md). -/

namespace Sys2Proof.Machine

/-- The pieces of an assembly line. -/
inductive Token where
  | word (cs : List Char)
  | comma
  | colon
  deriving DecidableEq, Repr

/-- End the word that is being collected. -/
def flushWord (acc : List Char) (ts : List Token) : List Token :=
  if acc = [] then ts else .word acc :: ts

/-- Cut a line into tokens; `;` starts a comment. `acc` is the word being collected. -/
def lexLine : List Char → List Char → List Token
  | [], acc => flushWord acc []
  | c :: cs, acc =>
    if c = ';' then flushWord acc []
    else if c = ' ' ∨ c = '\t' then flushWord acc (lexLine cs [])
    else if c = ',' then flushWord acc (.comma :: lexLine cs [])
    else if c = ':' then flushWord acc (.colon :: lexLine cs [])
    else lexLine cs (acc ++ [c])

/-- The value of a digit in a base. -/
def digitValue (base : Nat) (c : Char) : Option Nat :=
  let n := c.toNat
  let v :=
    if 48 ≤ n ∧ n ≤ 57 then n - 48
    else if 65 ≤ n ∧ n ≤ 70 then n - 55
    else if 97 ≤ n ∧ n ≤ 102 then n - 87
    else base
  if v < base then some v else none

/-- The value of digits in a base, most significant first, after `acc`. -/
def digitsValue (base : Nat) : List Char → Nat → Option Nat
  | [], acc => some acc
  | c :: cs, acc =>
    match digitValue base c with
    | some d => digitsValue base cs (acc * base + d)
    | none => none

/-- A number, decimal or `0x` hex (rule R85). -/
def parseNumber : List Char → Option Nat
  | [] => none
  | '0' :: 'x' :: d :: ds => digitsValue 16 (d :: ds) 0
  | d :: ds => digitsValue 10 (d :: ds) 0

/-- A byte operand, in `0..255` (rule R85). -/
def parseByte (cs : List Char) : Option Byte :=
  match parseNumber cs with
  | some n => if n < 256 then some (BitVec.ofNat 8 n) else none
  | none => none

/-- A count, in `0..2^32-1` (rule R85). -/
def parseCount (cs : List Char) : Option OperandWord :=
  match parseNumber cs with
  | some n => if n < 2 ^ 32 then some (BitVec.ofNat 32 n) else none
  | none => none

/-- The operand of DMA_ADVANCE: a signed decimal or a 32-bit hex word, in `-2^31..2^32-1` (rule R85). -/
def parseSample : List Char → Option OperandWord
  | '-' :: d :: ds =>
    match digitsValue 10 (d :: ds) 0 with
    | some n => if n ≤ 2 ^ 31 then some (BitVec.ofInt 32 (-(n : Int))) else none
    | none => none
  | cs => parseCount cs

/-- All operands as bytes. -/
def parseBytes : List (List Char) → Option (List Byte)
  | [] => some []
  | cs :: rest =>
    match parseByte cs, parseBytes rest with
    | some b, some bs => some (b :: bs)
    | _, _ => none

/-- The operands of a line: words separated by single commas. -/
def operandWords : List Token → Option (List (List Char))
  | [] => some []
  | [.word w] => some [w]
  | .word w :: .comma :: .word v :: rest => (operandWords (.word v :: rest)).map (w :: ·)
  | _ => none

/-- The mnemonic of each opcode (rule R78). -/
def mnemonic : Opcode → String
  | .init => "INIT"
  | .write => "WRITE"
  | .dmaAdvance => "DMA_ADVANCE"
  | .read => "READ"
  | .readUntil => "READ_UNTIL"
  | .syncToByte => "SYNC_TO_BYTE"
  | .isEmpty => "IS_EMPTY"
  | .isFull => "IS_FULL"
  | .dataCount => "DATA_COUNT"
  | .emptyCount => "EMPTY_COUNT"
  | .contigDataCount => "CONTIG_DATA_COUNT"
  | .contigEmptyCount => "CONTIG_EMPTY_COUNT"
  | .fullCount => "FULL_COUNT"
  | .status => "STATUS"

/-- Every opcode, in the order of rule R78. -/
def allOpcodes : List Opcode :=
  [.init, .write, .dmaAdvance, .read, .readUntil, .syncToByte, .isEmpty, .isFull, .dataCount, .emptyCount,
    .contigDataCount, .contigEmptyCount, .fullCount, .status]

/-- The instruction and payload of a mnemonic with its operands (rule R85). -/
def assembleOp (op : Opcode) (ws : List (List Char)) : Option (Instr × List Byte) :=
  match op, ws with
  | .write, w :: rest =>
    match parseBytes (w :: rest) with
    | some bs => if bs.length < 2 ^ 32 then some (.write (BitVec.ofNat 32 bs.length), bs) else none
    | none => none
  | .read, [n] => (parseCount n).map fun n => (.read n, [])
  | .readUntil, [m, d] =>
    match parseCount m, parseByte d with
    | some m, some d => some (.readUntil m d, [])
    | _, _ => none
  | .dmaAdvance, [v] => (parseSample v).map fun v => (.dmaAdvance v, [])
  | .syncToByte, [m] => (parseByte m).map fun m => (.syncToByte m, [])
  | .init, [] => some (.init, [])
  | .isEmpty, [] => some (.isEmpty, [])
  | .isFull, [] => some (.isFull, [])
  | .dataCount, [] => some (.dataCount, [])
  | .emptyCount, [] => some (.emptyCount, [])
  | .contigDataCount, [] => some (.contigDataCount, [])
  | .contigEmptyCount, [] => some (.contigEmptyCount, [])
  | .fullCount, [] => some (.fullCount, [])
  | .status, [] => some (.status, [])
  | _, _ => none

/-- The port of a line: its prefix, or the one port the opcode is legal on; a line of an opcode that is legal on both
ports needs the prefix (rule R85). -/
def linePort (port : Option Port) (op : Opcode) : Option Port :=
  match port with
  | some p => some p
  | none =>
    match op.legalOn .producer, op.legalOn .consumer with
    | true, false => some .producer
    | false, true => some .consumer
    | _, _ => none

/-- A line after its prefix. -/
def assembleAt (port : Option Port) (m : List Char) (rest : List Token) : Option (Port × Command) :=
  match allOpcodes.find? (fun op => (mnemonic op).toList = m) with
  | none => none
  | some op =>
    match linePort port op, operandWords rest with
    | some p, some ws =>
      (assembleOp op ws).map fun r => (p, { word := encode r.1, payload := r.2 })
    | _, _ => none

/-- Assemble one line (rule R85); none for a line that is not of the form. -/
def assembleLine (line : String) : Option (Port × Command) :=
  match lexLine line.toList [] with
  | .word ['P'] :: .colon :: .word m :: rest => assembleAt (some .producer) m rest
  | .word ['C'] :: .colon :: .word m :: rest => assembleAt (some .consumer) m rest
  | .word m :: rest => assembleAt none m rest
  | _ => none

end Sys2Proof.Machine
end

