-- ==== Sys2Proof/WellFormed.lean ====
section
/-! DEFINITION. Which requests break no contract (rules R70, R80, R204). Instruction operands have exactly their
field's width, so an instruction alone cannot be ill formed; what can be is a request: an instruction on a port with a
payload. Each check is one call-time contract violation of rule R204 that a decoded command can still commit. -/

namespace Sys2Proof

/-- The opcode is legal on the port (rules R70, R207). -/
def Request.roleOk (r : Request) : Bool := r.instr.opcode.legalOn r.port

/-- The payload has exactly the length the command carries (rule R80). -/
def Request.payloadOk (r : Request) : Bool := r.payload.length = r.instr.payloadLength

/-- The count operand of a WRITE, READ or READ_UNTIL is not zero (rule R204). -/
def Instr.countOk : Instr → Bool
  | .write n => n ≠ 0
  | .read n => n ≠ 0
  | .readUntil max _ => max ≠ 0
  | .init => true
  | .dmaAdvance _ => true
  | .syncToByte _ => true
  | .isEmpty => true
  | .isFull => true
  | .dataCount => true
  | .emptyCount => true
  | .contigDataCount => true
  | .contigEmptyCount => true
  | .fullCount => true
  | .status => true

/-- A request that commits no contract violation. -/
def Request.wellFormed (r : Request) : Bool := r.roleOk && r.payloadOk && r.instr.countOk

end Sys2Proof
end

