-- ==== Sys2Proof/Safety.lean ====
section
/-! DEFINITION. The terms claims are stated in: the invariant, the unread data as a byte list, what a good end is, the
duties the spec puts on the agents, and the runs its laws speak of. Nothing here changes what the machine does. -/

namespace Sys2Proof.Machine

/-! ### The invariant -/

/-- What holds in every state the spec admits: the configuration is an example of this hardware (rule R201); each
register holds a value of its width (rules R11, R24 to R26); the reserved slot is kept, `write -_W read <= MASK` (rule
R30); storage is in canonical form and has only the offsets `0..MASK` (rules R50, R68); CAUSE is a recorded code exactly
when FAULT is 1 (rules R34, R204). -/
abbrev State.Inv (s : State) : Prop :=
  s.cfg.Valid ∧
  s.write < s.cfg.cursorModulus ∧
  s.read < s.cfg.cursorModulus ∧
  s.dmaCnt < s.cfg.size ∧
  s.cursorSub s.write s.read ≤ s.cfg.mask ∧
  Memory.wf s.storage ∧
  (∀ c ∈ s.storage, c.1 < s.cfg.size) ∧
  (s.fault = false → s.cause = 0#4) ∧
  (s.fault = true → 1 ≤ s.cause.toNat ∧ s.cause.toNat ≤ 7)

/-- A good end of a run: no contract violation was recorded (rule R206). -/
abbrev State.GoodEnd (s : State) : Prop := s.fault = false

/-- What holds when Decode (rule R81) lets a command through to its own rule: the configuration is an example of this
hardware, no fault is recorded, the opcode is legal on the port the command arrived on, the payload has the command's
length. -/
abbrev State.Ready (s : State) (i : Instr) : Prop :=
  s.cfg.Valid ∧ s.fault = false ∧ i.opcode.legalOn s.arrival.port = true ∧ s.arrival.payload.length = i.payloadLength

/-! ### The unread data -/

/-- The unread bytes in the order they are read: logical indices `[read, write)` (rules R27, R53, R54). -/
def State.unread (s : State) : List Byte := s.loadRun s.read s.count

/-- The last `k` elements of a list (all of it when it is shorter). -/
def lastBytes (k : Nat) (l : List Byte) : List Byte := l.drop (l.length - k)

/-- The physical offset is one of the unread bytes' (rules R30, R53). -/
abbrev State.OffsetUnread (s : State) (off : Nat) : Prop :=
  ∃ i, i < s.count ∧ off = s.offset (s.cursorAdd s.read i)

/-- The physical offset is one of those a WRITE of `n` bytes stores to: byte `i` goes to `(write +_W i) & MASK` (rules
R53, R135). -/
abbrev State.OffsetWritten (s : State) (n off : Nat) : Prop :=
  ∃ i, i < n ∧ off = s.offset (s.cursorAdd s.write i)

/-- The pseudocode loop of SYNC_TO_BYTE (rule R190): while the buffer is not empty and the byte at `pr` is not the
marker, advance `read` by one. `fuel` bounds the loop; `count` is enough. -/
def syncLoop (marker : Byte) : Nat → State → State
  | 0, s => s
  | fuel + 1, s =>
    if s.count > 0 ∧ s.load s.pr ≠ marker then syncLoop marker fuel (s.advanceRead 1) else s

/-! ### The bytes a command puts in and takes out -/

/-- The bytes a command commits: the payload of a WRITE that is not rejected. -/
def committedBy (i : Instr) (s : State) : List Byte :=
  match i with
  | .write n => if n.toNat < s.cfg.size then s.arrival.payload else []
  | _ => []

/-- The bytes a command takes out: the DATA of READ and READ_UNTIL, the unread bytes that SYNC_TO_BYTE drops. -/
def consumedBy (i : Instr) (s s' : State) : List Byte :=
  match i with
  | .read _ => (s'.answers.getLast?.map Answer.data).getD []
  | .readUntil _ _ => (s'.answers.getLast?.map Answer.data).getD []
  | .syncToByte _ => s.unread.take (s.count - s'.count)
  | _ => []

/-! ### The DMA peripheral's discipline (rules R61, R63) -/

/-- What the peripheral's countdown register may read after it has stored `J` bytes (rule R61). -/
def CountdownReads (size J : Nat) (v : Int) : Prop :=
  if J % size = 0 then v = (size : Int) ∨ v = 0 else v = ((size - J % size : Nat) : Int)

/-- The peripheral has stored `J` bytes and all of them are accounted for: `pw = dma_cnt = J mod SIZE` (rules R63,
R236). -/
abbrev State.DmaAligned (s : State) (J : Nat) : Prop :=
  s.pw = J % s.cfg.size ∧ s.dmaCnt = J % s.cfg.size

/-- What may happen between two samples while the peripheral keeps its discipline (rules R61, R236): it stores the bytes
`bs` as its bytes `J, J+1, ...`, and between the stores any commands run that are no INIT, WRITE or DMA_ADVANCE, and take
out the bytes `c`. -/
inductive DisciplinedRun : State → Nat → List Byte → List Byte → State → Prop where
  | done (s : State) (J : Nat) : DisciplinedRun s J [] [] s
  | store {s s' : State} {J : Nat} {bs c : List Byte} (b : Byte)
      (rest : DisciplinedRun (s.store (J % s.cfg.size) b) (J + 1) bs c s') : DisciplinedRun s J (b :: bs) c s'
  | command {s s₁ s' : State} {J : Nat} {bs c : List Byte} {i : Instr}
      (kind : i.opcode ≠ .init ∧ i.opcode ≠ .write ∧ i.opcode ≠ .dmaAdvance)
      (runs : exec i s = .next s₁) (good : s₁.fault = false)
      (rest : DisciplinedRun s₁ J bs c s') : DisciplinedRun s J bs (consumedBy i s s₁ ++ c) s'
  | arrive {s s' : State} {J : Nat} {bs c : List Byte} (p : Port) (payload : List Byte)
      (rest : DisciplinedRun (s.take p payload) J bs c s') : DisciplinedRun s J bs c s'

/-- A stretch of a run in which the producer passes the peripheral's countdown samples, fewer than SIZE bytes are stored
between two samples, and nothing else moves `write` or `dma_cnt` (rule R176): the states at both ends and the numbers
of bytes the peripheral has stored by then. The stores themselves may fall anywhere in it: no cursor depends on them. -/
inductive SampledRun : State → Nat → State → Nat → Prop where
  | done (s : State) (J : Nat) : SampledRun s J s J
  | sample {s s₁ s' : State} {J J' T : Nat} {v : OperandWord}
      (few : T < s.cfg.size) (reads : CountdownReads s.cfg.size (J + T) v.toInt)
      (runs : exec (.dmaAdvance v) s = .next s₁) (good : s₁.fault = false)
      (rest : SampledRun s₁ (J + T) s' J') : SampledRun s J s' J'
  | other {s s₁ s' : State} {J J' : Nat} {i : Instr}
      (kind : i.opcode ≠ .init ∧ i.opcode ≠ .write ∧ i.opcode ≠ .dmaAdvance)
      (runs : exec i s = .next s₁) (good : s₁.fault = false)
      (rest : SampledRun s₁ J s' J') : SampledRun s J s' J'
  | store {s s' : State} {J J' : Nat} (off : Nat) (b : Byte) (inside : off < s.cfg.size)
      (rest : SampledRun (s.store off b) J s' J') : SampledRun s J s' J'
  | arrive {s s' : State} {J J' : Nat} (p : Port) (payload : List Byte)
      (rest : SampledRun (s.take p payload) J s' J') : SampledRun s J s' J'

/-! ### The runs of the round-trip law (rule R160) -/

/-- A run with no fault, no INIT, no DMA_ADVANCE, no commit that fires the overwrite and no DMA peripheral store into
the unread range, with all bytes committed and all bytes taken out, in order (rule R160). -/
inductive FifoRun : State → List Byte → List Byte → State → Prop where
  | done (s : State) : FifoRun s [] [] s
  | command {s s₁ s' : State} {i : Instr} {w c : List Byte}
      (kind : i.opcode ≠ .init ∧ i.opcode ≠ .dmaAdvance)
      (runs : exec i s = .next s₁) (good : s₁.fault = false)
      (fits : s.count + (committedBy i s).length ≤ s.cfg.mask)
      (rest : FifoRun s₁ w c s') : FifoRun s (committedBy i s ++ w) (consumedBy i s s₁ ++ c) s'
  | arrive {s s' : State} {w c : List Byte} (p : Port) (payload : List Byte)
      (rest : FifoRun (s.take p payload) w c s') : FifoRun s w c s'
  | dmaStore {s s' : State} {w c : List Byte} (off : Nat) (b : Byte)
      (inside : off < s.cfg.size) (outside : ¬ s.OffsetUnread off)
      (rest : FifoRun (s.store off b) w c s') : FifoRun s w c s'

/-! ### States that differ in W, P_NAME and P_PLATFORM_MAP only (rules R8, R10, R68) -/

/-- Two states of one SIZE that hold the same unread data in the same place and agree in everything else but the
cursors' width and high bits, the label and the platform map. -/
abbrev SameButForWidth (s t : State) : Prop :=
  s.Inv ∧ t.Inv ∧ s.cfg.sizeLog2 = t.cfg.sizeLog2 ∧ s.pw = t.pw ∧ s.pr = t.pr ∧
  s.dmaCnt = t.dmaCnt ∧ s.fullCnt = t.fullCnt ∧ s.fault = t.fault ∧ s.cause = t.cause ∧ s.storage = t.storage ∧
  s.queueP = t.queueP ∧ s.queueC = t.queueC ∧ s.arrival = t.arrival ∧ s.answers = t.answers ∧ s.schedule = t.schedule

end Sys2Proof.Machine
end

