-- ==== Sys2Proof/Certificates/Slice0/Obligations.lean ====
section
/-! DEFINITION. The statements for the provers. Each docstring names the rule of spec/ it formalises. `c.size` is SIZE,
`c.mask` is MASK and `c.cursorModulus` is 2^W of a configuration `c`; `s.count` is DataCount and `s.unread` the list of
unread bytes. A state `{ s with ... }` says everything: what is not named there is unchanged. Where that covers the
model's own fields (the latch, the waiting commands, the answers, the schedule), it is the model's choice
(notes/assumptions/7.md). -/

open Sys2Proof Sys2Proof.Machine

/-! ### Encoding and decoding -/

/-- Rules R73, R76, R77, R78: decoding the encoding of any instruction gives it back, with every operand at every value
its field holds. -/
def Obligations.DecodeEncodeRoundTrip : Prop :=
  ∀ i : Instr, decodeWord (encode i) = .ok i

/-- Rules R77, R78: a word that decodes is the encoding of what it decodes to; no bit of it is ignored. -/
def Obligations.EncodeDecodeRoundTrip : Prop :=
  ∀ (w : CommandWord) (i : Instr), decodeWord w = .ok i → encode i = w

/-- Rule R78: the opcode map with its match and mask values and its ports, written out row by row. A word is the named
command exactly when `word & mask = match`. -/
def Obligations.MatchMaskTableSelectsCommand : Prop :=
  ∀ row ∈ ([(.init, 0x0000000000000000#64, 0xFFFFFFFFFFFFFFFF#64, true, true),
      (.write, 0x0000000000000001#64, 0x00000000FFFFFFFF#64, true, false),
      (.dmaAdvance, 0x0000000000000002#64, 0x00000000FFFFFFFF#64, true, false),
      (.read, 0x0000000000000003#64, 0x00000000FFFFFFFF#64, false, true),
      (.readUntil, 0x0000000000000004#64, 0x00000000FFFF00FF#64, false, true),
      (.syncToByte, 0x0000000000000005#64, 0xFFFFFFFFFFFF00FF#64, false, true),
      (.isEmpty, 0x0000000000000008#64, 0xFFFFFFFFFFFFFFFF#64, true, true),
      (.isFull, 0x0000000000000009#64, 0xFFFFFFFFFFFFFFFF#64, true, true),
      (.dataCount, 0x000000000000000A#64, 0xFFFFFFFFFFFFFFFF#64, true, true),
      (.emptyCount, 0x000000000000000B#64, 0xFFFFFFFFFFFFFFFF#64, true, true),
      (.contigDataCount, 0x000000000000000C#64, 0xFFFFFFFFFFFFFFFF#64, true, true),
      (.contigEmptyCount, 0x000000000000000D#64, 0xFFFFFFFFFFFFFFFF#64, true, true),
      (.fullCount, 0x000000000000000E#64, 0xFFFFFFFFFFFFFFFF#64, true, true),
      (.status, 0x000000000000000F#64, 0xFFFFFFFFFFFFFFFF#64, true, true)] :
      List (Opcode × CommandWord × CommandWord × Bool × Bool)),
    (∀ w : CommandWord, w &&& row.2.2.1 = row.2.1 ↔ ∃ i, decodeWord w = .ok i ∧ i.opcode = row.1) ∧
    row.1.legalOn .producer = row.2.2.2.1 ∧ row.1.legalOn .consumer = row.2.2.2.2

/-- 30_encoding.md section 6: the lines of the encoding examples assemble to the words and payloads of that table, and
every word of the table decodes to the command its line names; a word of the reserved opcode 0x6 decodes to none. -/
def Obligations.EncodingExamples : Prop :=
  assembleLine "P: INIT" = some (.producer, { word := 0x0000000000000000#64, payload := [] }) ∧
  assembleLine "WRITE 1, 2, 3, 4, 5" =
    some (.producer, { word := 0x0000000500000001#64, payload := [1, 2, 3, 4, 5] }) ∧
  assembleLine "DMA_ADVANCE 22" = some (.producer, { word := 0x0000001600000002#64, payload := [] }) ∧
  assembleLine "DMA_ADVANCE -1" = some (.producer, { word := 0xFFFFFFFF00000002#64, payload := [] }) ∧
  assembleLine "READ 8" = some (.consumer, { word := 0x0000000800000003#64, payload := [] }) ∧
  assembleLine "READ_UNTIL 16, 0x0A" = some (.consumer, { word := 0x0000001000000A04#64, payload := [] }) ∧
  assembleLine "SYNC_TO_BYTE 0xAA" = some (.consumer, { word := 0x000000000000AA05#64, payload := [] }) ∧
  assembleLine "C: DATA_COUNT" = some (.consumer, { word := 0x000000000000000A#64, payload := [] }) ∧
  assembleLine "P: STATUS" = some (.producer, { word := 0x000000000000000F#64, payload := [] }) ∧
  decodeTableWord 64 0x0000000000000000 = some .init ∧
  decodeTableWord 64 0x0000000500000001 = some (.write 5) ∧
  decodeTableWord 64 0x0000001600000002 = some (.dmaAdvance 22) ∧
  decodeTableWord 64 0xFFFFFFFF00000002 = some (.dmaAdvance 0xFFFFFFFF) ∧
  decodeTableWord 64 0x0000000800000003 = some (.read 8) ∧
  decodeTableWord 64 0x0000001000000A04 = some (.readUntil 16 0x0A) ∧
  decodeTableWord 64 0x000000000000AA05 = some (.syncToByte 0xAA) ∧
  decodeTableWord 64 0x000000000000000A = some .dataCount ∧
  decodeTableWord 64 0x000000000000000F = some .status ∧
  decodeTableWord 64 0x0000000000000006 = none

/-- Rules R75, R80: a command travels as the eight bytes of its word, bits 7:0 first, and then its payload; a response
as the four bytes of RESULT, bits 7:0 first, and then DATA (without ERR: the model's choice, notes/assumptions/10.md);
and a command sent as bytes, followed by anything, is taken off the stream again, with its length found from OPC and N
alone (for a word that is no command: DEDUCED, notes/assumptions/10.md). -/
def Obligations.TransportRoundTrip : Prop :=
  (∀ c : Command, frameCommand c =
    [c.word.extractLsb' 0 8, c.word.extractLsb' 8 8, c.word.extractLsb' 16 8, c.word.extractLsb' 24 8,
      c.word.extractLsb' 32 8, c.word.extractLsb' 40 8, c.word.extractLsb' 48 8, c.word.extractLsb' 56 8] ++
      c.payload) ∧
  (∀ a : Answer, frameAnswer a =
    [a.result.extractLsb' 0 8, a.result.extractLsb' 8 8, a.result.extractLsb' 16 8, a.result.extractLsb' 24 8] ++
      a.data) ∧
  ∀ (c : Command) (rest : List Byte), c.payload.length = framedPayloadLength c.word →
    unframeCommand (frameCommand c ++ rest) = some (c, rest)

/-! ### A step -/

/-- Rules R72, R81: when the next event is the execution of port `p`, and the oldest command waiting there decodes to
`i`, the step is `exec i` of the state with that command taken off its port and its port and payload latched. -/
def Obligations.StepRunsDecodedInstruction : Prop :=
  ∀ (s : State) (p : Port) (c : Command) (q : List Command) (es : List Event) (i : Instr),
    s.cfg.Valid → s.schedule = .serve p :: es → s.queue p = c :: q → decodeWord c.word = .ok i →
    step s = exec i (({ s with schedule := es }.setQueue p q).take p c.payload)

/-- Rule R81: the decode procedure, check by check in its order, for every word and payload on either port. The first
failing check decides the outcome. -/
def Obligations.DecodeProcedure : Prop :=
  ∀ (s : State) (p : Port) (c : Command) (q : List Command) (es : List Event),
    s.cfg.Valid → s.schedule = .serve p :: es → s.queue p = c :: q →
    let t := ({ s with schedule := es }.setQueue p q).take p c.payload
    let noEffect : State := { t with answers := s.answers ++ [{ port := p, err := true, result := 0, data := [] }] }
    let raise := fun k : BitVec 4 => ({ noEffect with fault := true, cause := k } : State)
    step s =
      if s.fault = true then
        if c.word = 0x000000000000000F#64 ∧ c.payload = [] then exec .status t else .next noEffect
      else match Opcode.ofCode (c.word.extractLsb' 0 4) with
        | none => .next (raise 0x4)
        | some op =>
          if op.legalOn p = false then .next (raise 0x6)
          else if c.word &&& op.maskWord ≠ op.matchWord then .next (raise 0x5)
          else if op = .write ∧ c.payload.length ≠ (c.word.extractLsb' 32 32).toNat then .next (raise 0x7)
          else if op ≠ .write ∧ c.payload.length ≠ 0 then .next (raise 0x7)
          else exec (op.instr c.word) t

/-- Rule R72: a command issued waits behind those issued before it on its port, and issuing it changes nothing else: no
register, no FAULT or CAUSE, no byte of storage, no answer; executing a port takes its oldest command; the other port's
commands stay as they are. -/
def Obligations.PortsKeepIssueOrder : Prop :=
  (∀ (s : State) (p : Port) (c : Command) (es : List Event), s.cfg.Valid → s.schedule = .issue p c :: es →
    ∃ t, step s = .next t ∧ t.queue p = s.queue p ++ [c] ∧ (∀ p', p' ≠ p → t.queue p' = s.queue p') ∧
      t = { s with schedule := es, queueP := t.queueP, queueC := t.queueC }) ∧
  (∀ (s t : State) (p : Port) (c : Command) (q : List Command) (es : List Event),
    s.schedule = .serve p :: es → s.queue p = c :: q → step s = .next t →
    t.queue p = q ∧ ∀ p', p' ≠ p → t.queue p' = s.queue p')

/-- Rules R218, R231: with nothing to do the block waits and all state persists. That a step with an empty schedule
changes nothing, and that executing a port on which nothing waits only takes that event off the schedule, is the model's
choice (notes/assumptions/7.md). -/
def Obligations.IdleStepsChangeNothing : Prop :=
  (∀ s : State, s.cfg.Valid → s.schedule = [] → step s = .next s) ∧
  ∀ (s : State) (p : Port) (es : List Event), s.cfg.Valid → s.schedule = .serve p :: es → s.queue p = [] →
    step s = .next { s with schedule := es }

/-- Rules R71, R72, R74, R246: on either port, whatever waits on the other, the oldest waiting command is executed and
answered in one step, with exactly one response, on its own port. With `ERR = 1` RESULT is 0 and DATA is empty, and
`ERR = 1` means that the command raised a contract violation or arrived while FAULT was 1. -/
def Obligations.EveryCommandAnsweredInOneStep : Prop :=
  ∀ (s : State) (p : Port) (c : Command) (q : List Command) (es : List Event),
    s.cfg.Valid → s.schedule = .serve p :: es → s.queue p = c :: q →
    ∃ t a, step s = .next t ∧ t.answers = s.answers ++ [a] ∧ a.port = p ∧
      (a.err = true → a.result = 0 ∧ a.data = []) ∧
      (a.err = true ↔ t.fault = true ∧ ¬(c.word = 0x000000000000000F#64 ∧ c.payload = []))

/-- Rule R82: WRITE, READ, READ_UNTIL and the counts answer at most SIZE - 1; IS_EMPTY and IS_FULL answer 1 for true
and 0 for false; DATA holds exactly RESULT bytes for READ and READ_UNTIL and none for every other opcode. -/
def Obligations.ResultWords : Prop :=
  ∀ (i : Instr) (s t : State), s.Inv → exec i s = .next t →
    ∃ a, t.answers = s.answers ++ [a] ∧
      (i.opcode ≠ .fullCount → i.opcode ≠ .status → a.result.toNat ≤ s.cfg.size - 1) ∧
      (i = .isEmpty → a.err = false → a.result = if s.unread = [] then 1 else 0) ∧
      (i = .isFull → a.err = false → a.result = if s.unread.length = s.cfg.size - 1 then 1 else 0) ∧
      (i.opcode = .read ∨ i.opcode = .readUntil → a.data.length = a.result.toNat) ∧
      (i.opcode ≠ .read → i.opcode ≠ .readUntil → a.data = [])

/-! ### Configuration, reset, the invariant -/

/-- Rule R201: a configuration with P_SIZE_LOG2 outside 1..31 or W < P_SIZE_LOG2 + 1 is refused and has no step. That
`step` answers the refusal `invalidConfiguration`, and that every `exec` answers it too, is the model's choice (DEDUCED,
notes/assumptions/11.md). -/
def Obligations.InvalidConfigurationRefused : Prop :=
  ∀ s : State, (s.cfg.sizeLog2 < 1 ∨ 31 < s.cfg.sizeLog2 ∨ s.cfg.cursorWidth < s.cfg.sizeLog2 + 1) →
    step s = .refused .invalidConfiguration ∧ ∀ i, exec i s = .refused .invalidConfiguration

/-- Rule R38: no command and no other event changes the configuration. -/
def Obligations.ConfigurationNeverChanges : Prop :=
  (∀ s t : State, step s = .next t → t.cfg = s.cfg) ∧
  (∀ (i : Instr) (s t : State), exec i s = .next t → t.cfg = s.cfg)

/-- Rule R230: hardware reset between any two steps sets the registers to the values of rule R40, clears FAULT and
CAUSE, leaves storage, and drops the commands that had not executed without a response. That the responses already
given, the latch and the rest of the schedule stay is the model's choice (DEDUCED, notes/assumptions/9.md). -/
def Obligations.HardwareResetEffect : Prop :=
  ∀ (s : State) (es : List Event), s.cfg.Valid → s.schedule = .reset :: es →
    step s = .next { s with
      write := 0, read := 0, dmaCnt := 0, fullCnt := 0, fault := false, cause := 0, queueP := [], queueC := [],
      schedule := es }

/-- Rule R41: just after reset the count is 0, MASK slots are free, IS_EMPTY answers 1 and IS_FULL answers 0 on either
port. -/
def Obligations.ResetLeavesEmptyBuffer : Prop :=
  ∀ (s : State) (es : List Event) (p : Port), s.cfg.Valid → s.schedule = .reset :: es →
    ∃ t, step s = .next t ∧ t.count = 0 ∧ t.free = s.cfg.mask ∧
      exec .isEmpty (t.take p []) = .next { t.take p [] with
        answers := s.answers ++ [{ port := p, err := false, result := 1, data := [] }] } ∧
      exec .isFull (t.take p []) = .next { t.take p [] with
        answers := s.answers ++ [{ port := p, err := false, result := 0, data := [] }] }

/-- Rules R11, R30, R34, R40, R50: the invariant holds right after reset: in the model's own `State.reset`, whose
configuration and zero storage are the model's choice (notes/assumptions/1.md, 2.md); in the same state with any valid
configuration and any storage in canonical form below SIZE; and after a hardware reset in the middle of any run over
such a configuration and storage. -/
def Obligations.ResetSatisfiesInvariant : Prop :=
  State.reset.Inv ∧
  (∀ (c : Config) (m : Memory), c.Valid → Memory.wf m → (∀ x ∈ m, x.1 < c.size) →
    ({ State.reset with cfg := c, storage := m } : State).Inv) ∧
  ∀ s : State, s.cfg.Valid → Memory.wf s.storage → (∀ x ∈ s.storage, x.1 < s.cfg.size) → s.hardReset.Inv

/-- Rules R11, R30, R34, R68: from every state that satisfies the invariant, every step that answers a next state, for
every event and every command word, gives a state that satisfies it. -/
def Obligations.StepKeepsInvariant : Prop :=
  ∀ s t : State, s.Inv → step s = .next t → t.Inv

/-- Rule R30: before and after every command, every reset and every DMA peripheral store at most SIZE - 1 bytes are
unread, and the byte at `pw` is not one of them. -/
def Obligations.ReservedSlotNeverUnread : Prop :=
  ∀ s : State, s.Inv →
    (s.cursorSub s.write s.read ≤ s.cfg.mask ∧ s.unread.length ≤ s.cfg.size - 1 ∧ ¬ s.OffsetUnread s.pw) ∧
    ∀ t, step s = .next t →
      t.cursorSub t.write t.read ≤ t.cfg.mask ∧ t.unread.length ≤ t.cfg.size - 1 ∧ ¬ t.OffsetUnread t.pw

/-- Rule R60: the DMA peripheral's store sets the byte at its offset and touches nothing else, no register and no other
byte, whatever FAULT holds. Outside `0..MASK` there is no byte to store to: the step stops by name (the model's own,
notes/assumptions/5.md). -/
def Obligations.DmaStoreEffect : Prop :=
  ∀ (s : State) (off : Nat) (b : Byte) (es : List Event),
    s.cfg.Valid → Memory.wf s.storage → s.schedule = .dmaStore off b :: es →
    (off < s.cfg.size → ∃ t, step s = .next t ∧ t = { s with schedule := es, storage := t.storage } ∧
      t.load off = b ∧ ∀ a, a ≠ off → t.load a = s.load a) ∧
    (s.cfg.size ≤ off → step s = .fault .noSuchOffset)

/-! ### Contract violations -/

/-- Rule R205: a contract violation in a command that starts with FAULT = 0 sets FAULT, records one cause 0x1..0x7,
answers `ERR = 1`, and changes nothing else: no storage byte, no cursor, no counter. -/
def Obligations.FaultEntryIsPrecise : Prop :=
  ∀ (s t : State) (p : Port) (c : Command) (q : List Command) (es : List Event),
    s.schedule = .serve p :: es → s.queue p = c :: q → s.fault = false → step s = .next t → t.fault = true →
    ∃ k : BitVec 4, 1 ≤ k.toNat ∧ k.toNat ≤ 7 ∧
      t = { ({ s with schedule := es }.setQueue p q).take p c.payload with
        fault := true, cause := k,
        answers := s.answers ++ [{ port := p, err := true, result := 0, data := [] }] }

/-- Rule R206: while FAULT is 1 every command but the exact word 0x000000000000000F with an empty payload answers
`ERR = 1` and changes nothing; every event but reset keeps FAULT and the first CAUSE; reset clears them; the DMA
peripheral still stores; and such a state is no good end. -/
def Obligations.FaultedState : Prop :=
  ∀ s : State, s.cfg.Valid → s.fault = true →
    (∀ (p : Port) (c : Command) (q : List Command) (es : List Event), s.schedule = .serve p :: es → s.queue p = c :: q →
      step s = .next { ({ s with schedule := es }.setQueue p q).take p c.payload with
        answers := s.answers ++ [if c.word = 0x000000000000000F#64 ∧ c.payload = [] then
          { port := p, err := false, result := s.statusWord, data := [] }
        else { port := p, err := true, result := 0, data := [] }] }) ∧
    (∀ t, step s = .next t → (∀ es, s.schedule ≠ .reset :: es) → t.fault = true ∧ t.cause = s.cause) ∧
    (∀ es t, s.schedule = .reset :: es → step s = .next t → t.fault = false ∧ t.cause = 0) ∧
    (∀ off b es, s.schedule = .dmaStore off b :: es → off < s.cfg.size →
      step s = .next { s with schedule := es, storage := Memory.write s.storage off b }) ∧
    ¬ s.GoodEnd

/-- Rule R207 with the roles of rule R70: WRITE and DMA_ADVANCE on port C, and READ, READ_UNTIL and SYNC_TO_BYTE on port
P, raise ROLE_VIOLATION (0x6), whatever the rest of the word and the payload are. -/
def Obligations.WrongPortRaisesRoleViolation : Prop :=
  ∀ (s : State) (p : Port) (c : Command) (q : List Command) (es : List Event),
    s.cfg.Valid → s.fault = false → s.schedule = .serve p :: es → s.queue p = c :: q →
    (p = .consumer ∧ (c.word.toNat % 16 = 0x1 ∨ c.word.toNat % 16 = 0x2) ∨
      p = .producer ∧ (c.word.toNat % 16 = 0x3 ∨ c.word.toNat % 16 = 0x4 ∨ c.word.toNat % 16 = 0x5)) →
    step s = .next { ({ s with schedule := es }.setQueue p q).take p c.payload with
      fault := true, cause := 0x6,
      answers := s.answers ++ [{ port := p, err := true, result := 0, data := [] }] }

/-- Rules R135, R150, R155, R204: WRITE, READ and READ_UNTIL with N = 0 raise ZERO_LENGTH_WRITE (0x1), ZERO_LENGTH_READ
(0x2) and ZERO_LENGTH_READ_UNTIL (0x3), and have no other effect. -/
def Obligations.ZeroLengthRaises : Prop :=
  ∀ (s : State) (d : Byte), s.cfg.Valid → s.fault = false → s.arrival.payload = [] →
    let raise := fun k : BitVec 4 => ({ s with
      fault := true, cause := k,
      answers := s.answers ++ [{ port := s.arrival.port, err := true, result := 0, data := [] }] } : State)
    (s.arrival.port = .producer → exec (.write 0) s = .next (raise 0x1)) ∧
    (s.arrival.port = .consumer → exec (.read 0) s = .next (raise 0x2)) ∧
    (s.arrival.port = .consumer → exec (.readUntil 0 d) s = .next (raise 0x3))

/-! ### INIT and the queries -/

/-- Rule R100: INIT completes on either port: the cursors, `dma_cnt` and `full_cnt` become 0, RESULT is 0, and nothing
else changes, no storage byte either. -/
def Obligations.InitResult : Prop :=
  ∀ s : State, s.cfg.Valid → s.fault = false → s.arrival.payload = [] →
    exec .init s = .next { s with
      write := 0, read := 0, dmaCnt := 0, fullCnt := 0,
      answers := s.answers ++ [{ port := s.arrival.port, err := false, result := 0, data := [] }] }

/-- Rule R232: reset and INIT have the same effect on `write`, `read`, `dma_cnt`, `full_cnt` and storage. They differ in
two ways: reset clears FAULT and CAUSE, whatever FAULT was, where INIT executes only when FAULT is 0 (while it is 1 INIT
only answers `ERR = 1`) and leaves them at 0; and reset drops the waiting commands where INIT leaves them. -/
def Obligations.ResetAndInitAgree : Prop :=
  ∀ (s t u : State) (es : List Event), s.Inv → s.fault = false → s.arrival.payload = [] →
    exec .init s = .next t → step { s with schedule := .reset :: es } = .next u →
    t.write = u.write ∧ t.read = u.read ∧ t.dmaCnt = u.dmaCnt ∧ t.fullCnt = u.fullCnt ∧ t.storage = u.storage ∧
    t.fault = false ∧ t.cause = 0 ∧ u.fault = false ∧ u.cause = 0 ∧
    (∀ p, t.queue p = s.queue p) ∧ (∀ p, u.queue p = []) ∧
    ∀ k : BitVec 4,
      step { s with fault := true, cause := k, schedule := .reset :: es } = .next u ∧
      exec .init { s with fault := true, cause := k } = .next { s with
        fault := true, cause := k,
        answers := s.answers ++ [{ port := s.arrival.port, err := true, result := 0, data := [] }] }

/-- Rule R110: IS_EMPTY completes on either port and answers whether `pw = pr`. -/
def Obligations.IsEmptyResult : Prop :=
  ∀ s : State, s.cfg.Valid → s.fault = false → s.arrival.payload = [] →
    let r : ResultWord := if s.write % s.cfg.size = s.read % s.cfg.size then 1 else 0
    exec .isEmpty s = .next { s with
      answers := s.answers ++ [{ port := s.arrival.port, err := false, result := r, data := [] }] }

/-- Rule R111, 90_conflicts.md C1: IS_FULL completes on either port and answers whether `(write + 1) mod SIZE = pr`. -/
def Obligations.IsFullResult : Prop :=
  ∀ s : State, s.cfg.Valid → s.fault = false → s.arrival.payload = [] →
    let r : ResultWord := if (s.write + 1) % s.cfg.size = s.read % s.cfg.size then 1 else 0
    exec .isFull s = .next { s with
      answers := s.answers ++ [{ port := s.arrival.port, err := false, result := r, data := [] }] }

/-- Rules R27, R112: DATA_COUNT completes on either port and answers the distance from `read` to `write`, across the
wrap of the cursors. -/
def Obligations.DataCountResult : Prop :=
  ∀ s : State, s.Inv → s.fault = false → s.arrival.payload = [] →
    let r : ResultWord := BitVec.ofNat 32 ((s.write + s.cfg.cursorModulus - s.read) % s.cfg.cursorModulus)
    exec .dataCount s = .next { s with
      answers := s.answers ++ [{ port := s.arrival.port, err := false, result := r, data := [] }] }

/-- Rule R113: EMPTY_COUNT completes on either port and answers MASK less the distance from `read` to `write`. -/
def Obligations.EmptyCountResult : Prop :=
  ∀ s : State, s.Inv → s.fault = false → s.arrival.payload = [] →
    let d : Nat := (s.write + s.cfg.cursorModulus - s.read) % s.cfg.cursorModulus
    let r : ResultWord := BitVec.ofNat 32 (s.cfg.size - 1 - d)
    exec .emptyCount s = .next { s with
      answers := s.answers ++ [{ port := s.arrival.port, err := false, result := r, data := [] }] }

/-- Rule R114: CONTIG_DATA_COUNT completes on either port and answers `min(count, SIZE - pr)`. -/
def Obligations.ContigDataCountResult : Prop :=
  ∀ s : State, s.Inv → s.fault = false → s.arrival.payload = [] →
    let d : Nat := (s.write + s.cfg.cursorModulus - s.read) % s.cfg.cursorModulus
    let r : ResultWord := BitVec.ofNat 32 (min d (s.cfg.size - s.read % s.cfg.size))
    exec .contigDataCount s = .next { s with
      answers := s.answers ++ [{ port := s.arrival.port, err := false, result := r, data := [] }] }

/-- Rule R115, 90_conflicts.md C8: CONTIG_EMPTY_COUNT completes on either port and answers `min(free, SIZE - pw)`. -/
def Obligations.ContigEmptyCountResult : Prop :=
  ∀ s : State, s.Inv → s.fault = false → s.arrival.payload = [] →
    let d : Nat := (s.write + s.cfg.cursorModulus - s.read) % s.cfg.cursorModulus
    let r : ResultWord := BitVec.ofNat 32 (min (s.cfg.size - 1 - d) (s.cfg.size - s.write % s.cfg.size))
    exec .contigEmptyCount s = .next { s with
      answers := s.answers ++ [{ port := s.arrival.port, err := false, result := r, data := [] }] }

/-- Rule R117: FULL_COUNT completes on either port and answers `full_cnt`. -/
def Obligations.FullCountResult : Prop :=
  ∀ s : State, s.cfg.Valid → s.fault = false → s.arrival.payload = [] →
    exec .fullCount s = .next { s with
      answers := s.answers ++ [{ port := s.arrival.port, err := false, result := s.fullCnt, data := [] }] }

/-- Rule R118: STATUS completes on either port, also while FAULT is 1, and answers the word with FAULT in bit 0, CAUSE
in bits 7:4, P_SIZE_LOG2 in bits 12:8 and every other bit 0. -/
def Obligations.StatusResult : Prop :=
  ∀ s : State, s.cfg.Valid → s.arrival.payload = [] →
    let r : ResultWord := BitVec.ofNat 32 (s.cfg.sizeLog2 * 256 + s.cause.toNat * 16 + if s.fault then 1 else 0)
    exec .status s = .next { s with
      answers := s.answers ++ [{ port := s.arrival.port, err := false, result := r, data := [] }] }

/-- Rules R110, R111: IS_EMPTY is 1 exactly when DATA_COUNT is 0, and IS_FULL is 1 exactly when DATA_COUNT is MASK, that
is when EMPTY_COUNT is 0; the raw cursors are equal when `pw = pr`. -/
def Obligations.EmptyAndFullAgreeWithCounts : Prop :=
  ∀ s : State, s.Inv →
    (s.isEmpty = true ↔ s.count = 0) ∧ (s.isFull = true ↔ s.count = s.cfg.mask) ∧
    (s.isFull = true ↔ s.free = 0) ∧ (s.isEmpty = true → s.write = s.read)

/-- Rule R116: the laws of the count queries in one state, and what is left after a READ of CONTIG_DATA_COUNT bytes. -/
def Obligations.CountQueryLaws : Prop :=
  ∀ s : State, s.Inv →
    s.contigData ≤ s.count ∧ s.contigEmpty ≤ s.free ∧ s.count + s.free = s.cfg.mask ∧
    (s.Ready (.read (BitVec.ofNat 32 s.contigData)) → 0 < s.contigData →
      ∃ t a, exec (.read (BitVec.ofNat 32 s.contigData)) s = .next t ∧ t.answers = s.answers ++ [a] ∧
        a.err = false ∧ a.result.toNat = s.contigData ∧ t.count = s.count - s.contigData)

/-- Rule R57: the frame of the eight query commands. Without a contract violation they add their answer and change
nothing else, no register, no flag and no byte of storage, and issued again at once they answer the same. -/
def Obligations.QueriesHaveNoSideEffect : Prop :=
  ∀ (i : Instr) (s t : State),
    i ∈ [.isEmpty, .isFull, .dataCount, .emptyCount, .contigDataCount, .contigEmptyCount, .fullCount, .status] →
    exec i s = .next t → t.fault = s.fault →
    ∃ a, t = { s with answers := s.answers ++ [a] } ∧ exec i t = .next { s with answers := s.answers ++ [a, a] }

/-! ### Commit and WRITE -/

/-- Rule R133: after `Commit(m)` the count is `min(count + m, MASK)` and the reserved slot is kept; without overwrite
the distance of the cursors is `count + m`, with overwrite it is MASK. -/
def Obligations.CommitEffectOnCount : Prop :=
  ∀ (s : State) (m : Nat), s.Inv → m ≤ s.cfg.mask →
    (s.commit m).count = min (s.count + m) s.cfg.mask ∧
    s.cursorSub (s.commit m).write (s.commit m).read ≤ s.cfg.mask ∧
    (s.count + m ≤ s.cfg.mask → s.cursorSub (s.commit m).write (s.commit m).read = s.count + m) ∧
    (s.cfg.mask < s.count + m → s.cursorSub (s.commit m).write (s.commit m).read = s.cfg.mask)

/-- Rules R131, R135: a WRITE of 0 < N < SIZE bytes on port P completes: byte `i` goes to offset `(write + i) mod SIZE`,
every other byte stays, `write` advances by N, the overwrite fires exactly when N exceeds the free slots, and RESULT is
N. Nothing else changes. -/
def Obligations.WriteResult : Prop :=
  ∀ (s : State) (n : OperandWord), s.Inv → s.fault = false → s.arrival.port = .producer →
    s.arrival.payload.length = n.toNat → 0 < n.toNat → n.toNat < s.cfg.size →
    ∃ t, exec (.write n) s = .next t ∧
      t = { s with
        write := (s.write + n.toNat) % s.cfg.cursorModulus
        read := if n.toNat > s.cfg.mask - s.count then
          ((s.write + n.toNat) + (s.cfg.cursorModulus - s.cfg.mask)) % s.cfg.cursorModulus else s.read
        fullCnt := if n.toNat > s.cfg.mask - s.count then s.fullCnt + 1 else s.fullCnt
        storage := t.storage
        answers := s.answers ++ [{ port := .producer, err := false, result := n, data := [] }] } ∧
      (∀ (i : Nat) (h : i < s.arrival.payload.length),
        t.load ((s.write + i) % s.cfg.size) = s.arrival.payload[i]) ∧
      (∀ a, (∀ i < n.toNat, a ≠ (s.write + i) % s.cfg.size) → t.load a = s.load a)

/-- Rule R136: a WRITE with N >= SIZE writes no storage byte, changes no register and answers 0. -/
def Obligations.WriteTooLongRejected : Prop :=
  ∀ (s : State) (n : OperandWord), s.cfg.Valid → s.fault = false → s.arrival.port = .producer →
    s.arrival.payload.length = n.toNat → s.cfg.size ≤ n.toNat →
    exec (.write n) s = .next { s with
      answers := s.answers ++ [{ port := .producer, err := false, result := 0, data := [] }] }

/-- Rule R138: after a WRITE the unread data is the last MASK bytes of what was unread before followed by the payload,
in commit order; without an overwrite that is all of them. -/
def Obligations.WriteKeepsNewestBytes : Prop :=
  ∀ (s : State) (n : OperandWord), s.Inv → s.fault = false → s.arrival.port = .producer →
    s.arrival.payload.length = n.toNat → 0 < n.toNat → n.toNat < s.cfg.size →
    ∃ t, exec (.write n) s = .next t ∧ t.unread = lastBytes s.cfg.mask (s.unread ++ s.arrival.payload)

/-- Rule R137: WRITE with N = 1 is the source's single-byte fast path: store at `write & mask`, advance `write` by one,
and if it collides with `read`, which happens exactly when MASK bytes were unread, advance `read` by one and count the
event. -/
def Obligations.SingleByteWriteFastPath : Prop :=
  ∀ (s : State) (b : Byte), s.Inv → s.fault = false → s.arrival.port = .producer → s.arrival.payload = [b] →
    ∃ t, exec (.write 1) s = .next t ∧ t.load (s.write &&& s.cfg.mask) = b ∧
      t.write = (s.write + 1) % s.cfg.cursorModulus ∧
      (t.write &&& s.cfg.mask = s.read &&& s.cfg.mask ↔ s.count = s.cfg.mask) ∧
      (t.write &&& s.cfg.mask = s.read &&& s.cfg.mask →
        t.read = (s.read + 1) % s.cfg.cursorModulus ∧ t.fullCnt = s.fullCnt + 1) ∧
      (t.write &&& s.cfg.mask ≠ s.read &&& s.cfg.mask → t.read = s.read ∧ t.fullCnt = s.fullCnt)

/-- Rules R134, R139: a WRITE or DMA_ADVANCE raises `full_cnt` by exactly one when it pushes the unread data past
SIZE - 1, and leaves it otherwise; and it answers a next state. -/
def Obligations.OneOverwriteEventPerCommit : Prop :=
  ∀ s : State, s.Inv →
    (∀ n : OperandWord, s.Ready (.write n) → 0 < n.toNat → n.toNat < s.cfg.size →
      ∃ t, exec (.write n) s = .next t ∧
        t.fullCnt = if s.unread.length + n.toNat > s.cfg.size - 1 then s.fullCnt + 1 else s.fullCnt) ∧
    (∀ v : OperandWord, s.Ready (.dmaAdvance v) →
      ∃ t, exec (.dmaAdvance v) s = .next t ∧
        t.fullCnt = if s.unread.length + wrapSub s.cfg.size (producedOf s.cfg.size v.toInt) s.dmaCnt > s.cfg.size - 1
          then s.fullCnt + 1 else s.fullCnt)

/-- Rules R26, R51, R135, R170: the frame of the producer commands WRITE and DMA_ADVANCE. WRITE may change `write`,
`read`, `full_cnt` and the bytes at the offsets `(write +_W i) & MASK`, i < N; DMA_ADVANCE may change `write`, `read`,
`full_cnt` and `dma_cnt` and no byte. FAULT and CAUSE change only by a contract violation, and then nothing else
does. -/
def Obligations.ProducerFrame : Prop :=
  ∀ (i : Instr) (s t : State), s.Inv → i.opcode = .write ∨ i.opcode = .dmaAdvance → exec i s = .next t →
    t.cfg = s.cfg ∧ t.queueP = s.queueP ∧ t.queueC = s.queueC ∧ t.arrival = s.arrival ∧ t.schedule = s.schedule ∧
    (∃ a, t.answers = s.answers ++ [a]) ∧
    (i.opcode = .write → t.dmaCnt = s.dmaCnt) ∧
    (∀ n, i = .write n → ∀ a, ¬ s.OffsetWritten n.toNat a → t.load a = s.load a) ∧
    (∀ n, i = .write n → ¬ s.Ready i ∨ s.cfg.size ≤ n.toNat → ∀ a, t.load a = s.load a) ∧
    (i.opcode = .dmaAdvance → ∀ a, t.load a = s.load a) ∧
    (t.fault = s.fault ∧ t.cause = s.cause ∨
      s.fault = false ∧ t.fault = true ∧ t.write = s.write ∧ t.read = s.read ∧ t.dmaCnt = s.dmaCnt ∧
        t.fullCnt = s.fullCnt ∧ t.storage = s.storage)

/-! ### READ, READ_UNTIL, SYNC_TO_BYTE -/

/-- Rules R54, R150: a READ of N > 0 on port C completes: DATA is the first `min(N, count)` unread bytes in order,
RESULT is their number, `read` advances by it, the rest stays unread, and nothing else changes. An empty buffer answers
0. -/
def Obligations.ReadResult : Prop :=
  ∀ (s : State) (n : OperandWord), s.Inv → s.fault = false → s.arrival.port = .consumer → s.arrival.payload = [] →
    0 < n.toNat →
    let r : ResultWord := BitVec.ofNat 32 (min n.toNat s.count)
    let a : Answer := { port := .consumer, err := false, result := r, data := s.unread.take n.toNat }
    ∃ t, exec (.read n) s = .next t ∧
      t = { s with
        read := (s.read + min n.toNat s.count) % s.cfg.cursorModulus
        answers := s.answers ++ [a] } ∧
      t.unread = s.unread.drop n.toNat

/-- Rule R152: READ with N = 1 is the source's single-byte fast path: copy the byte at `read & mask` and advance `read`
by one; on an empty buffer answer 0 and change nothing. -/
def Obligations.SingleByteReadFastPath : Prop :=
  ∀ s : State, s.Inv → s.fault = false → s.arrival.port = .consumer → s.arrival.payload = [] →
    (1 ≤ s.count → exec (.read 1) s = .next { s with
      read := (s.read + 1) % s.cfg.cursorModulus
      answers := s.answers ++
        [{ port := .consumer, err := false, result := 1, data := [s.load (s.read &&& s.cfg.mask)] }] }) ∧
    (s.count = 0 → exec (.read 1) s = .next { s with
      answers := s.answers ++ [{ port := .consumer, err := false, result := 0, data := [] }] })

/-- Rule R156: READ_UNTIL with the first delimiter at logical offset `k < min(max, count)` answers `k + 1` and copies
exactly the bytes `0..k`; with none there it answers `min(max, count)` and copies that many. `read` advances by the
bytes copied, and nothing else changes. -/
def Obligations.ReadUntilResult : Prop :=
  ∀ (s : State) (n : OperandWord) (d : Byte), s.Inv → s.fault = false → s.arrival.port = .consumer →
    s.arrival.payload = [] → 0 < n.toNat →
    let copied := fun m : Nat => ({ s with
      read := (s.read + m) % s.cfg.cursorModulus
      answers := s.answers ++
        [{ port := .consumer, err := false, result := BitVec.ofNat 32 m, data := s.unread.take m }] } : State)
    (∀ k, k < min n.toNat s.count → s.load ((s.read + k) % s.cfg.size) = d →
      (∀ j < k, s.load ((s.read + j) % s.cfg.size) ≠ d) →
      exec (.readUntil n d) s = .next (copied (k + 1))) ∧
    ((∀ j < min n.toNat s.count, s.load ((s.read + j) % s.cfg.size) ≠ d) →
      exec (.readUntil n d) s = .next (copied (min n.toNat s.count)))

/-- Rule R190: SYNC_TO_BYTE on port C completes: `read` advances to the first unread byte equal to the marker, which is
not consumed, or to `write` when there is none; RESULT is 0 and nothing else changes. -/
def Obligations.SyncToByteResult : Prop :=
  ∀ (s : State) (m : Byte), s.Inv → s.fault = false → s.arrival.port = .consumer → s.arrival.payload = [] →
    (∀ k, k < s.count → s.load ((s.read + k) % s.cfg.size) = m →
      (∀ j < k, s.load ((s.read + j) % s.cfg.size) ≠ m) →
      exec (.syncToByte m) s = .next { s with
        read := (s.read + k) % s.cfg.cursorModulus
        answers := s.answers ++ [{ port := .consumer, err := false, result := 0, data := [] }] }) ∧
    ((∀ j < s.count, s.load ((s.read + j) % s.cfg.size) ≠ m) →
      exec (.syncToByte m) s = .next { s with
        read := s.write
        answers := s.answers ++ [{ port := .consumer, err := false, result := 0, data := [] }] })

/-- Rules R190, R191: SYNC_TO_BYTE is the pseudocode loop that drops one byte at a time, and after it the buffer is
empty or the byte at `pr` is the marker. -/
def Obligations.SyncToByteIsTheDropLoop : Prop :=
  ∀ (s : State) (m : Byte), s.Inv → s.Ready (.syncToByte m) →
    exec (.syncToByte m) s = .next { syncLoop m s.count s with
      answers := s.answers ++ [{ port := .consumer, err := false, result := 0, data := [] }] } ∧
    ((syncLoop m s.count s).count = 0 ∨ (syncLoop m s.count s).load (syncLoop m s.count s).pr = m)

/-- Rules R36, R161: the frame of the consumer commands READ, READ_UNTIL and SYNC_TO_BYTE. They never move `write`,
`dma_cnt` or `full_cnt`, store no byte, and move `read` forward within the unread data; after READ or READ_UNTIL
returning `m` the count is the old one less `m`. FAULT and CAUSE change only by a contract violation, and then nothing
else does. -/
def Obligations.ConsumerFrame : Prop :=
  ∀ (i : Instr) (s t : State), s.Inv → i.opcode = .read ∨ i.opcode = .readUntil ∨ i.opcode = .syncToByte →
    exec i s = .next t →
    t.cfg = s.cfg ∧ t.write = s.write ∧ t.dmaCnt = s.dmaCnt ∧ t.fullCnt = s.fullCnt ∧
    t.queueP = s.queueP ∧ t.queueC = s.queueC ∧ t.arrival = s.arrival ∧ t.schedule = s.schedule ∧
    (∀ a, t.load a = s.load a) ∧
    (∃ (m : Nat) (a : Answer), m ≤ s.count ∧ t.read = (s.read + m) % s.cfg.cursorModulus ∧ t.count = s.count - m ∧
      t.answers = s.answers ++ [a] ∧ (i.opcode ≠ .syncToByte → a.result.toNat = m)) ∧
    (t.fault = s.fault ∧ t.cause = s.cause ∨ s.fault = false ∧ t.fault = true ∧ t.read = s.read)

/-- Rule R160: the round-trip law. Along any run with no fault, no INIT, no DMA_ADVANCE, no overwrite and no DMA store
into the unread range, the bytes unread at the start followed by the committed payloads are the bytes taken out
followed by the bytes unread at the end. From an empty buffer: what comes out is a prefix of what went in, in order. -/
def Obligations.RoundTripLaw : Prop :=
  ∀ (s t : State) (w c : List Byte), s.Inv → s.fault = false → FifoRun s w c t →
    s.unread ++ w = c ++ t.unread ∧ (s.count = 0 → c <+: w)

/-- Rules R24, R25, R31, R42: read as unbounded totals of bytes committed and of bytes consumed or dropped, the cursors
never go back: if `w` and `r` are totals that the registers hold modulo 2^W, then after any instruction but INIT they
hold totals `w'` and `r'` that are no less, with `r' <= w'`, at most MASK apart, and the count is their difference. -/
def Obligations.CursorsNeverGoBack : Prop :=
  ∀ (i : Instr) (s t : State) (w r : Nat), s.Inv → i.opcode ≠ .init → exec i s = .next t →
    w % s.cfg.cursorModulus = s.write → r % s.cfg.cursorModulus = s.read → r ≤ w → w - r ≤ s.cfg.mask →
    ∃ w' r', w ≤ w' ∧ w' ≤ w + s.cfg.mask ∧ r ≤ r' ∧ r' ≤ w' ∧ w' - r' ≤ s.cfg.mask ∧
      t.write = w' % s.cfg.cursorModulus ∧ t.read = r' % s.cfg.cursorModulus ∧ t.count = w' - r'

/-! ### DMA_ADVANCE -/

/-- Rules R131, R170, R172 to R174: DMA_ADVANCE on port P completes for every sample V: `dma_cnt` takes the produced
position, `write` advances by the modular difference, the overwrite fires exactly when that exceeds the free slots,
RESULT is 0, and nothing else changes, no storage byte either. -/
def Obligations.DmaAdvanceResult : Prop :=
  ∀ (s : State) (v : OperandWord), s.Inv → s.fault = false → s.arrival.port = .producer → s.arrival.payload = [] →
    let c : Int := if v.toInt < 0 then 0 else if v.toInt > s.cfg.size then s.cfg.size else v.toInt
    let produced : Nat := ((s.cfg.size - c) % s.cfg.size).toNat
    let delta : Nat := (((produced : Int) - s.dmaCnt) % s.cfg.size).toNat
    exec (.dmaAdvance v) s = .next { s with
      dmaCnt := produced
      write := (s.write + delta) % s.cfg.cursorModulus
      read := if delta > s.cfg.mask - s.count then
        ((s.write + delta) + (s.cfg.cursorModulus - s.cfg.mask)) % s.cfg.cursorModulus else s.read
      fullCnt := if delta > s.cfg.mask - s.count then s.fullCnt + 1 else s.fullCnt
      answers := s.answers ++ [{ port := .producer, err := false, result := 0, data := [] }] }

/-- Rule R171: the produced position is in `[0, MASK]`; it is `SIZE - V` for `1 <= V <= MASK` and 0 for every other V;
reading the operand field as unsigned gives the same. -/
def Obligations.ProducedPosition : Prop :=
  ∀ (c : Config) (v : OperandWord), c.Valid →
    producedOf c.size v.toInt ≤ c.mask ∧
    (1 ≤ v.toInt → v.toInt ≤ c.mask → (producedOf c.size v.toInt : Int) = c.size - v.toInt) ∧
    (v.toInt < 1 ∨ v.toInt > c.mask → producedOf c.size v.toInt = 0) ∧
    producedOf c.size (v.toNat : Int) = producedOf c.size v.toInt

/-- Rules R175, R240: if the peripheral stored `T` bytes since the last sample, any T, DMA_ADVANCE advances `write` by
`T mod SIZE`; when T is a multiple of SIZE nothing moves and no overwrite is counted. -/
def Obligations.WholeLapsAreLost : Prop :=
  ∀ (s : State) (v : OperandWord) (J T : Nat), s.Inv → s.fault = false → s.arrival.port = .producer →
    s.arrival.payload = [] → s.dmaCnt = J % s.cfg.size → CountdownReads s.cfg.size (J + T) v.toInt →
    ∃ t, exec (.dmaAdvance v) s = .next t ∧ t.write = (s.write + T % s.cfg.size) % s.cfg.cursorModulus ∧
      t.dmaCnt = (J + T) % s.cfg.size ∧ (T % s.cfg.size = 0 → t.read = s.read ∧ t.fullCnt = s.fullCnt)

/-- Rule R176: the cumulative law. Along any run whose samples are taken before SIZE bytes are stored and in which
nothing else moves `write` or `dma_cnt`, `write` advances in total by the bytes the peripheral produced, and `dma_cnt`
keeps its position. -/
def Obligations.CumulativeDmaAdvance : Prop :=
  ∀ (s t : State) (J J' : Nat), s.Inv → s.fault = false → s.dmaCnt = J % s.cfg.size → SampledRun s J t J' →
    J ≤ J' ∧ t.write = (s.write + (J' - J)) % s.cfg.cursorModulus ∧ t.dmaCnt = J' % s.cfg.size

/-- Rules R61, R63, R236, R240: a peripheral that keeps its discipline hands over its bytes. Right after reset and after
INIT it is aligned at its byte 0. From an aligned state, with fewer than SIZE bytes `bs` stored since the last sample and
any queries and consumer commands between the stores, which take out the bytes `c`: after the sample the alignment is
kept, and the unread data is the newest of the bytes unread at the start followed by `bs`, as many as are not taken out
and fit, so that every byte the sample commits is one the peripheral stored. If it stored no more than the bytes free at
the start, nothing is lost: the bytes unread at the start followed by `bs` are the bytes taken out followed by the bytes
unread at the end. -/
def Obligations.DisciplinedDmaDeliversItsBytes : Prop :=
  (∀ s : State, s.hardReset.DmaAligned 0) ∧
  (∀ s t : State, s.fault = false → exec .init s = .next t → t.fault = false → t.DmaAligned 0) ∧
  ∀ (s u : State) (v : OperandWord) (J : Nat) (bs c : List Byte), s.Inv → s.fault = false → s.DmaAligned J →
    DisciplinedRun s J bs c u → bs.length < s.cfg.size →
    u.arrival.port = .producer → u.arrival.payload = [] → CountdownReads s.cfg.size (J + bs.length) v.toInt →
    ∃ t, exec (.dmaAdvance v) u = .next t ∧ t.DmaAligned (J + bs.length) ∧ c.length ≤ s.count ∧
      t.unread = lastBytes (min (s.count - c.length + bs.length) s.cfg.mask) (s.unread ++ bs) ∧
      (bs.length ≤ s.free → s.unread ++ bs = c ++ t.unread)

/-! ### What the open parameters cannot change -/

/-- Rules R8, R10, R68: no response depends on the cursor width W, the label or the platform map. Two machines of one
SIZE that agree in everything else step alike, answer alike and still agree. -/
def Obligations.ResponsesDoNotDependOnWidth : Prop :=
  ∀ s t s' : State, SameButForWidth s t → step s = .next s' →
    ∃ t', step t = .next t' ∧ SameButForWidth s' t'
end

