-- ==== Sys2Proof/Laws/State.lean ====
section
/-! SUPPORT. One lemma per field per update of State, true by rfl, so that no later proof unfolds a record update. -/

namespace Sys2Proof.Machine

/-! ### answer -/

section
variable (s : State) (r : ResultWord) (d : List Byte)

@[simp] theorem State.answer_cfg : (s.answer r d).cfg = s.cfg := rfl
@[simp] theorem State.answer_write : (s.answer r d).write = s.write := rfl
@[simp] theorem State.answer_read : (s.answer r d).read = s.read := rfl
@[simp] theorem State.answer_dmaCnt : (s.answer r d).dmaCnt = s.dmaCnt := rfl
@[simp] theorem State.answer_fullCnt : (s.answer r d).fullCnt = s.fullCnt := rfl
@[simp] theorem State.answer_fault : (s.answer r d).fault = s.fault := rfl
@[simp] theorem State.answer_cause : (s.answer r d).cause = s.cause := rfl
@[simp] theorem State.answer_storage : (s.answer r d).storage = s.storage := rfl
@[simp] theorem State.answer_queueP : (s.answer r d).queueP = s.queueP := rfl
@[simp] theorem State.answer_queueC : (s.answer r d).queueC = s.queueC := rfl
@[simp] theorem State.answer_arrival : (s.answer r d).arrival = s.arrival := rfl
@[simp] theorem State.answer_answers : (s.answer r d).answers = s.answers ++ [{ port := s.arrival.port, err := false, result := r, data := d }] := rfl
@[simp] theorem State.answer_schedule : (s.answer r d).schedule = s.schedule := rfl

end

/-! ### answerErr -/

section
variable (s : State)

@[simp] theorem State.answerErr_cfg : (s.answerErr).cfg = s.cfg := rfl
@[simp] theorem State.answerErr_write : (s.answerErr).write = s.write := rfl
@[simp] theorem State.answerErr_read : (s.answerErr).read = s.read := rfl
@[simp] theorem State.answerErr_dmaCnt : (s.answerErr).dmaCnt = s.dmaCnt := rfl
@[simp] theorem State.answerErr_fullCnt : (s.answerErr).fullCnt = s.fullCnt := rfl
@[simp] theorem State.answerErr_fault : (s.answerErr).fault = s.fault := rfl
@[simp] theorem State.answerErr_cause : (s.answerErr).cause = s.cause := rfl
@[simp] theorem State.answerErr_storage : (s.answerErr).storage = s.storage := rfl
@[simp] theorem State.answerErr_queueP : (s.answerErr).queueP = s.queueP := rfl
@[simp] theorem State.answerErr_queueC : (s.answerErr).queueC = s.queueC := rfl
@[simp] theorem State.answerErr_arrival : (s.answerErr).arrival = s.arrival := rfl
@[simp] theorem State.answerErr_answers : (s.answerErr).answers = s.answers ++ [{ port := s.arrival.port, err := true, result := 0, data := [] }] := rfl
@[simp] theorem State.answerErr_schedule : (s.answerErr).schedule = s.schedule := rfl

end

/-! ### store -/

section
variable (s : State) (off : Nat) (b : Byte)

@[simp] theorem State.store_cfg : (s.store off b).cfg = s.cfg := rfl
@[simp] theorem State.store_write : (s.store off b).write = s.write := rfl
@[simp] theorem State.store_read : (s.store off b).read = s.read := rfl
@[simp] theorem State.store_dmaCnt : (s.store off b).dmaCnt = s.dmaCnt := rfl
@[simp] theorem State.store_fullCnt : (s.store off b).fullCnt = s.fullCnt := rfl
@[simp] theorem State.store_fault : (s.store off b).fault = s.fault := rfl
@[simp] theorem State.store_cause : (s.store off b).cause = s.cause := rfl
@[simp] theorem State.store_storage : (s.store off b).storage = Memory.write s.storage off b := rfl
@[simp] theorem State.store_queueP : (s.store off b).queueP = s.queueP := rfl
@[simp] theorem State.store_queueC : (s.store off b).queueC = s.queueC := rfl
@[simp] theorem State.store_arrival : (s.store off b).arrival = s.arrival := rfl
@[simp] theorem State.store_answers : (s.store off b).answers = s.answers := rfl
@[simp] theorem State.store_schedule : (s.store off b).schedule = s.schedule := rfl

end

/-! ### take -/

section
variable (s : State) (p : Port) (bs : List Byte)

@[simp] theorem State.take_cfg : (s.take p bs).cfg = s.cfg := rfl
@[simp] theorem State.take_write : (s.take p bs).write = s.write := rfl
@[simp] theorem State.take_read : (s.take p bs).read = s.read := rfl
@[simp] theorem State.take_dmaCnt : (s.take p bs).dmaCnt = s.dmaCnt := rfl
@[simp] theorem State.take_fullCnt : (s.take p bs).fullCnt = s.fullCnt := rfl
@[simp] theorem State.take_fault : (s.take p bs).fault = s.fault := rfl
@[simp] theorem State.take_cause : (s.take p bs).cause = s.cause := rfl
@[simp] theorem State.take_storage : (s.take p bs).storage = s.storage := rfl
@[simp] theorem State.take_queueP : (s.take p bs).queueP = s.queueP := rfl
@[simp] theorem State.take_queueC : (s.take p bs).queueC = s.queueC := rfl
@[simp] theorem State.take_arrival : (s.take p bs).arrival = { port := p, payload := bs } := rfl
@[simp] theorem State.take_answers : (s.take p bs).answers = s.answers := rfl
@[simp] theorem State.take_schedule : (s.take p bs).schedule = s.schedule := rfl

end

/-! ### advanceWrite -/

section
variable (s : State) (m : Nat)

@[simp] theorem State.advanceWrite_cfg : (s.advanceWrite m).cfg = s.cfg := rfl
@[simp] theorem State.advanceWrite_write : (s.advanceWrite m).write = s.cursorAdd s.write m := rfl
@[simp] theorem State.advanceWrite_read : (s.advanceWrite m).read = s.read := rfl
@[simp] theorem State.advanceWrite_dmaCnt : (s.advanceWrite m).dmaCnt = s.dmaCnt := rfl
@[simp] theorem State.advanceWrite_fullCnt : (s.advanceWrite m).fullCnt = s.fullCnt := rfl
@[simp] theorem State.advanceWrite_fault : (s.advanceWrite m).fault = s.fault := rfl
@[simp] theorem State.advanceWrite_cause : (s.advanceWrite m).cause = s.cause := rfl
@[simp] theorem State.advanceWrite_storage : (s.advanceWrite m).storage = s.storage := rfl
@[simp] theorem State.advanceWrite_queueP : (s.advanceWrite m).queueP = s.queueP := rfl
@[simp] theorem State.advanceWrite_queueC : (s.advanceWrite m).queueC = s.queueC := rfl
@[simp] theorem State.advanceWrite_arrival : (s.advanceWrite m).arrival = s.arrival := rfl
@[simp] theorem State.advanceWrite_answers : (s.advanceWrite m).answers = s.answers := rfl
@[simp] theorem State.advanceWrite_schedule : (s.advanceWrite m).schedule = s.schedule := rfl

end

/-! ### advanceRead -/

section
variable (s : State) (m : Nat)

@[simp] theorem State.advanceRead_cfg : (s.advanceRead m).cfg = s.cfg := rfl
@[simp] theorem State.advanceRead_write : (s.advanceRead m).write = s.write := rfl
@[simp] theorem State.advanceRead_read : (s.advanceRead m).read = s.cursorAdd s.read m := rfl
@[simp] theorem State.advanceRead_dmaCnt : (s.advanceRead m).dmaCnt = s.dmaCnt := rfl
@[simp] theorem State.advanceRead_fullCnt : (s.advanceRead m).fullCnt = s.fullCnt := rfl
@[simp] theorem State.advanceRead_fault : (s.advanceRead m).fault = s.fault := rfl
@[simp] theorem State.advanceRead_cause : (s.advanceRead m).cause = s.cause := rfl
@[simp] theorem State.advanceRead_storage : (s.advanceRead m).storage = s.storage := rfl
@[simp] theorem State.advanceRead_queueP : (s.advanceRead m).queueP = s.queueP := rfl
@[simp] theorem State.advanceRead_queueC : (s.advanceRead m).queueC = s.queueC := rfl
@[simp] theorem State.advanceRead_arrival : (s.advanceRead m).arrival = s.arrival := rfl
@[simp] theorem State.advanceRead_answers : (s.advanceRead m).answers = s.answers := rfl
@[simp] theorem State.advanceRead_schedule : (s.advanceRead m).schedule = s.schedule := rfl

end

/-! ### overwriteOldest -/

section
variable (s : State)

@[simp] theorem State.overwriteOldest_cfg : (s.overwriteOldest).cfg = s.cfg := rfl
@[simp] theorem State.overwriteOldest_write : (s.overwriteOldest).write = s.write := rfl
@[simp] theorem State.overwriteOldest_read : (s.overwriteOldest).read = s.cursorSub s.write s.cfg.mask := rfl
@[simp] theorem State.overwriteOldest_dmaCnt : (s.overwriteOldest).dmaCnt = s.dmaCnt := rfl
@[simp] theorem State.overwriteOldest_fullCnt : (s.overwriteOldest).fullCnt = s.fullCnt + 1 := rfl
@[simp] theorem State.overwriteOldest_fault : (s.overwriteOldest).fault = s.fault := rfl
@[simp] theorem State.overwriteOldest_cause : (s.overwriteOldest).cause = s.cause := rfl
@[simp] theorem State.overwriteOldest_storage : (s.overwriteOldest).storage = s.storage := rfl
@[simp] theorem State.overwriteOldest_queueP : (s.overwriteOldest).queueP = s.queueP := rfl
@[simp] theorem State.overwriteOldest_queueC : (s.overwriteOldest).queueC = s.queueC := rfl
@[simp] theorem State.overwriteOldest_arrival : (s.overwriteOldest).arrival = s.arrival := rfl
@[simp] theorem State.overwriteOldest_answers : (s.overwriteOldest).answers = s.answers := rfl
@[simp] theorem State.overwriteOldest_schedule : (s.overwriteOldest).schedule = s.schedule := rfl

end

/-! ### hardReset -/

section
variable (s : State)

@[simp] theorem State.hardReset_cfg : (s.hardReset).cfg = s.cfg := rfl
@[simp] theorem State.hardReset_write : (s.hardReset).write = 0 := rfl
@[simp] theorem State.hardReset_read : (s.hardReset).read = 0 := rfl
@[simp] theorem State.hardReset_dmaCnt : (s.hardReset).dmaCnt = 0 := rfl
@[simp] theorem State.hardReset_fullCnt : (s.hardReset).fullCnt = 0 := rfl
@[simp] theorem State.hardReset_fault : (s.hardReset).fault = false := rfl
@[simp] theorem State.hardReset_cause : (s.hardReset).cause = 0 := rfl
@[simp] theorem State.hardReset_storage : (s.hardReset).storage = s.storage := rfl
@[simp] theorem State.hardReset_queueP : (s.hardReset).queueP = [] := rfl
@[simp] theorem State.hardReset_queueC : (s.hardReset).queueC = [] := rfl
@[simp] theorem State.hardReset_arrival : (s.hardReset).arrival = s.arrival := rfl
@[simp] theorem State.hardReset_answers : (s.hardReset).answers = s.answers := rfl
@[simp] theorem State.hardReset_schedule : (s.hardReset).schedule = s.schedule := rfl

end

/-! ### setQueue -/

section
variable (s : State) (p : Port) (q : List Command)

@[simp] theorem State.setQueue_cfg : (s.setQueue p q).cfg = s.cfg := by cases p <;> rfl
@[simp] theorem State.setQueue_write : (s.setQueue p q).write = s.write := by cases p <;> rfl
@[simp] theorem State.setQueue_read : (s.setQueue p q).read = s.read := by cases p <;> rfl
@[simp] theorem State.setQueue_dmaCnt : (s.setQueue p q).dmaCnt = s.dmaCnt := by cases p <;> rfl
@[simp] theorem State.setQueue_fullCnt : (s.setQueue p q).fullCnt = s.fullCnt := by cases p <;> rfl
@[simp] theorem State.setQueue_fault : (s.setQueue p q).fault = s.fault := by cases p <;> rfl
@[simp] theorem State.setQueue_cause : (s.setQueue p q).cause = s.cause := by cases p <;> rfl
@[simp] theorem State.setQueue_storage : (s.setQueue p q).storage = s.storage := by cases p <;> rfl
@[simp] theorem State.setQueue_arrival : (s.setQueue p q).arrival = s.arrival := by cases p <;> rfl
@[simp] theorem State.setQueue_answers : (s.setQueue p q).answers = s.answers := by cases p <;> rfl
@[simp] theorem State.setQueue_schedule : (s.setQueue p q).schedule = s.schedule := by cases p <;> rfl

@[simp] theorem State.queue_setQueue_same : (s.setQueue p q).queue p = q := by cases p <;> rfl

theorem State.queue_setQueue_other (p' : Port) (h : p' ≠ p) : (s.setQueue p q).queue p' = s.queue p' := by
  cases p <;> cases p' <;> first | rfl | exact absurd rfl h

end

/-! ### Equality -/

/-- Two states are equal if they are field by field. -/
theorem State.eq_of_fields {s t : State} (cfg : s.cfg = t.cfg) (write : s.write = t.write) (read : s.read = t.read)
    (dmaCnt : s.dmaCnt = t.dmaCnt) (fullCnt : s.fullCnt = t.fullCnt) (fault : s.fault = t.fault)
    (cause : s.cause = t.cause) (storage : s.storage = t.storage) (queueP : s.queueP = t.queueP)
    (queueC : s.queueC = t.queueC) (arrival : s.arrival = t.arrival) (answers : s.answers = t.answers)
    (schedule : s.schedule = t.schedule) : s = t := by
  cases s
  cases t
  cases cfg; cases write; cases read; cases dmaCnt; cases fullCnt; cases fault; cases cause; cases storage
  cases queueP; cases queueC; cases arrival; cases answers; cases schedule
  rfl

/-! ### The views that depend on a few fields only -/

/-- The cursor operations depend on the configuration alone. -/
theorem State.offset_congr {s t : State} (h : s.cfg = t.cfg) (c : Nat) : s.offset c = t.offset c := by
  simp [State.offset, h]

theorem State.cursorAdd_congr {s t : State} (h : s.cfg = t.cfg) (c i : Nat) : s.cursorAdd c i = t.cursorAdd c i := by
  simp [State.cursorAdd, h]

theorem State.cursorSub_congr {s t : State} (h : s.cfg = t.cfg) (a b : Nat) : s.cursorSub a b = t.cursorSub a b := by
  simp [State.cursorSub, h]

/-- The count depends on the configuration and the two cursors alone. -/
theorem State.count_congr {s t : State} (h : s.cfg = t.cfg) (hw : s.write = t.write) (hr : s.read = t.read) :
    s.count = t.count := by
  simp [State.count, State.offset, State.cursorSub, h, hw, hr]

/-- The unread data depends on the configuration, the two cursors and storage alone. -/
theorem State.unread_congr {s t : State} (h : s.cfg = t.cfg) (hw : s.write = t.write) (hr : s.read = t.read)
    (hm : s.storage = t.storage) : s.unread = t.unread := by
  simp [State.unread, State.loadRun, State.load, State.count, State.offset, State.cursorAdd, State.cursorSub, h, hw, hr,
    hm]

end Sys2Proof.Machine
end

