-- ==== Sys2Proof/Laws/Arith.lean ====
section
/-! SUPPORT. The arithmetic of the cursors: masking is the remainder by SIZE (rule R12), and the wrapping sum and
difference as case distinctions that linear arithmetic can use. -/

namespace Sys2Proof

/-! ### The configuration -/

theorem Config.size_pos (c : Config) : 0 < c.size := Nat.two_pow_pos _

theorem Config.mask_lt_size (c : Config) : c.mask < c.size := by
  have := Config.size_pos c
  unfold Config.mask
  omega

theorem Config.size_eq (c : Config) : c.size = c.mask + 1 := by
  have := Config.size_pos c
  unfold Config.mask
  omega

theorem Config.cursorModulus_pos (c : Config) : 0 < c.cursorModulus := Nat.two_pow_pos _

/-- SIZE divides 2^W (rule R12). -/
theorem Config.size_dvd_cursorModulus {c : Config} (h : c.Valid) : c.size ∣ c.cursorModulus :=
  pow_dvd_pow 2 (by have := h.2.2; omega)

/-- `2 * SIZE <= 2^W`, because `W >= P_SIZE_LOG2 + 1`. -/
theorem Config.two_size_le {c : Config} (h : c.Valid) : 2 * c.size ≤ c.cursorModulus := by
  have h2 : c.size * 2 = 2 ^ (c.sizeLog2 + 1) := (pow_succ 2 c.sizeLog2).symm
  have h3 : 2 ^ (c.sizeLog2 + 1) ≤ c.cursorModulus := Nat.pow_le_pow_right (by omega) h.2.2
  omega

theorem Config.size_ge_two {c : Config} (h : c.Valid) : 2 ≤ c.size := by
  have := Nat.pow_le_pow_right (n := 2) (by omega) h.1
  simpa [Config.size] using this

/-- Every count fits the 32-bit result word (rule R82). -/
theorem Config.size_le {c : Config} (h : c.Valid) : c.size ≤ 2 ^ 31 :=
  Nat.pow_le_pow_right (by omega) h.2.1

end Sys2Proof

namespace Sys2Proof.Machine

/-! ### Masking (rule R12) -/

theorem State.offset_eq_mod (s : State) (x : Nat) : s.offset x = x % s.cfg.size :=
  Nat.and_two_pow_sub_one_eq_mod x s.cfg.sizeLog2

theorem State.offset_lt (s : State) (x : Nat) : s.offset x < s.cfg.size := by
  rw [State.offset_eq_mod]
  exact Nat.mod_lt _ (Config.size_pos _)

/-! ### Wrapping arithmetic (rule R11) -/

theorem wrapAdd_lt {M : Nat} (h : 0 < M) (a b : Nat) : wrapAdd M a b < M := Nat.mod_lt _ h

/-- The wrapping sum of a register value and a number up to the modulus. -/
theorem wrapAdd_eq {M a b : Nat} (ha : a < M) (hb : b ≤ M) :
    wrapAdd M a b = if a + b < M then a + b else a + b - M := by
  unfold wrapAdd
  split
  · exact Nat.mod_eq_of_lt ‹_›
  · rw [Nat.mod_eq_sub_mod (by omega)]
    exact Nat.mod_eq_of_lt (by omega)

/-- The wrapping difference of two register values. -/
theorem wrapSub_eq {M a b : Nat} (ha : a < M) (hb : b < M) :
    wrapSub M a b = if b ≤ a then a - b else M + a - b := by
  unfold wrapSub
  split
  · rw [Int.emod_eq_of_lt (by omega) (by omega)]
    omega
  · have : ((a : Int) - b) % M = (M : Int) + a - b := by
      rw [← Int.add_emod_right]
      rw [Int.emod_eq_of_lt (by omega) (by omega)]
      omega
    rw [this]
    omega

theorem wrapSub_lt {M : Nat} (h : 0 < M) (a b : Nat) : wrapSub M a b < M := by
  unfold wrapSub
  have := Int.emod_lt_of_pos ((a : Int) - b) (b := M) (by omega)
  have := Int.emod_nonneg ((a : Int) - b) (b := M) (by omega)
  omega

/-- The difference modulo `M`, written with naturals only. -/
theorem wrapSub_eq_mod {M a b : Nat} (ha : a < M) (hb : b < M) : wrapSub M a b = (a + (M - b)) % M := by
  rw [wrapSub_eq ha hb]
  split
  · have : a + (M - b) = (a - b) + M := by omega
    rw [this, Nat.add_mod_right, Nat.mod_eq_of_lt (by omega)]
  · rw [Nat.mod_eq_of_lt (by omega)]
    omega

/-- Reducing modulo the cursor modulus first does not change the remainder by SIZE. -/
theorem mod_cursorModulus_mod_size {c : Config} (h : c.Valid) (x : Nat) : x % c.cursorModulus % c.size = x % c.size :=
  Nat.mod_mod_of_dvd x (Config.size_dvd_cursorModulus h)

/-- Index `i` of a transfer from cursor `c` is at offset `(c + i) mod SIZE` (rules R12, R53). -/
theorem State.offset_cursorAdd {s : State} (h : s.cfg.Valid) (c i : Nat) :
    s.offset (s.cursorAdd c i) = (c + i) % s.cfg.size := by
  rw [State.offset_eq_mod]
  exact mod_cursorModulus_mod_size h _

/-- A wrapping difference with a modulus that SIZE divides, masked, is the difference modulo SIZE (rule R12). -/
theorem wrapSub_mod_of_dvd {M n : Nat} (hM : 0 < M) (hn : 0 < n) (d : n ∣ M) (a b : Nat) :
    wrapSub M a b % n = wrapSub n a b := by
  unfold wrapSub
  have h1 := Int.emod_nonneg ((a : Int) - b) (b := M) (by omega)
  have h2 := Int.emod_nonneg ((a : Int) - b) (b := n) (by omega)
  have : ((((a : Int) - b) % (M : Int)) % (n : Int)) = ((a : Int) - b) % (n : Int) :=
    Int.emod_emod_of_dvd _ (by exact_mod_cast d)
  zify
  rw [Int.toNat_of_nonneg h1, Int.toNat_of_nonneg h2]
  exact this

theorem State.count_eq_wrapSub {s : State} (h : s.cfg.Valid) : s.count = wrapSub s.cfg.size s.write s.read := by
  unfold State.count State.cursorSub
  rw [State.offset_eq_mod]
  exact wrapSub_mod_of_dvd (Config.cursorModulus_pos _) (Config.size_pos _) (Config.size_dvd_cursorModulus h) _ _

theorem State.count_le_mask (s : State) : s.count ≤ s.cfg.mask := by
  have := State.offset_lt s (s.cursorSub s.write s.read)
  have := Config.size_eq s.cfg
  unfold State.count
  omega

/-- Under the reserved-slot invariant the count is the wrapping difference itself (rules R27, R30). -/
theorem State.count_eq_cursorSub {s : State} (h : s.cursorSub s.write s.read ≤ s.cfg.mask) :
    s.count = s.cursorSub s.write s.read := by
  unfold State.count
  rw [State.offset_eq_mod, Nat.mod_eq_of_lt]
  have := Config.mask_lt_size s.cfg
  omega

end Sys2Proof.Machine
end

