-- ==== Sys2Proof/Laws/Memory.lean ====
section
/-! SUPPORT. Storage: a read after a write, the bytes a write leaves alone, and that every operation over storage keeps
its canonical form and its offsets below SIZE. -/

namespace Sys2Proof.Machine

theorem Memory.read_of_forall_ne {m : Memory} {a : Nat} (h : ∀ c ∈ m, c.1 ≠ a) : Memory.read m a = Memory.unlisted := by
  induction m with
  | nil => rfl
  | cons c rest ih =>
    obtain ⟨k, v⟩ := c
    have hk : k ≠ a := h (k, v) (by simp)
    simp only [Memory.read, if_neg hk]
    exact ih fun c hc => h c (by simp [hc])

/-- A read after a write gives the written byte at its offset and the old byte everywhere else. -/
theorem Memory.read_write {m : Memory} (h : m.wf) (off : Nat) (b : Byte) (a : Nat) :
    Memory.read (Memory.write m off b) a = if a = off then b else Memory.read m a := by
  induction m with
  | nil =>
    by_cases ha : a = off
    · by_cases hb : b = Memory.unlisted <;> simp [Memory.write, Memory.read, hb, ha]
    · have hne : ¬off = a := fun h => ha h.symm
      by_cases hb : b = Memory.unlisted <;> simp [Memory.write, Memory.read, hb, ha, hne]
  | cons c rest ih =>
    obtain ⟨k, v⟩ := c
    have hp := List.pairwise_cons.1 h.1
    have hrest : Memory.wf rest := ⟨hp.2, fun c hc => h.2 c (by simp [hc])⟩
    have habove : ∀ x, x ≤ k → Memory.read rest x = Memory.unlisted := fun x hx =>
      Memory.read_of_forall_ne fun c hc => by have := hp.1 c hc; simp at this; omega
    have ih := ih hrest
    rcases Nat.lt_trichotomy off k with hlt | heq | hgt
    · by_cases hb : b = Memory.unlisted
      · by_cases ha : a = off
        · subst ha
          have hne : ¬k = a := by omega
          simp [Memory.write, Memory.read, hlt, hb, hne, habove a (by omega)]
        · simp [Memory.write, hlt, hb, ha]
      · by_cases ha : a = off
        · subst ha
          simp [Memory.write, Memory.read, hlt, hb]
        · have hne : ¬off = a := fun h => ha h.symm
          simp [Memory.write, Memory.read, hlt, hb, ha, hne]
    · subst heq
      by_cases hb : b = Memory.unlisted
      · by_cases ha : a = off
        · subst ha
          simp [Memory.write, hb, habove a (by omega)]
        · have hne : ¬off = a := fun h => ha h.symm
          simp [Memory.write, Memory.read, hb, ha, hne]
      · by_cases ha : a = off
        · subst ha
          simp [Memory.write, Memory.read, hb]
        · have hne : ¬off = a := fun h => ha h.symm
          simp [Memory.write, Memory.read, hb, ha, hne]
    · have h1 : ¬off < k := by omega
      have h2 : ¬off = k := by omega
      simp only [Memory.write, if_neg h1, if_neg h2, Memory.read, ih]
      by_cases ha : a = off
      · have h3 : ¬k = a := by omega
        simp [ha, if_neg (by omega : ¬k = off)]
      · simp [ha]

theorem Memory.mem_write {m : Memory} {off : Nat} {b : Byte} {c : Host.Cell} (h : c ∈ Memory.write m off b) :
    c ∈ m ∨ c = (off, b) ∧ b ≠ Memory.unlisted := by
  induction m with
  | nil =>
    by_cases hb : b = Memory.unlisted
    · simp [Memory.write, hb] at h
    · simp only [Memory.write, if_neg hb, List.mem_singleton] at h
      exact .inr ⟨h, hb⟩
  | cons d rest ih =>
    obtain ⟨k, v⟩ := d
    unfold Memory.write at h
    split at h
    · split at h
      · exact .inl h
      · rcases List.mem_cons.1 h with rfl | h
        · exact .inr ⟨rfl, ‹_›⟩
        · exact .inl h
    · split at h
      · split at h
        · exact .inl (List.mem_cons_of_mem _ h)
        · rcases List.mem_cons.1 h with rfl | h
          · exact .inr ⟨rfl, ‹_›⟩
          · exact .inl (List.mem_cons_of_mem _ h)
      · rcases List.mem_cons.1 h with rfl | h
        · exact .inl (by simp)
        · exact (ih h).imp (List.mem_cons_of_mem _) id

/-- A write keeps the canonical form. -/
theorem Memory.write_keeps_wf {m : Memory} (h : m.wf) (off : Nat) (b : Byte) : Memory.wf (Memory.write m off b) := by
  refine ⟨?_, fun c hc => ?_⟩
  · induction m with
    | nil => by_cases hb : b = Memory.unlisted <;> simp [Memory.write, hb]
    | cons d rest ih =>
      obtain ⟨k, v⟩ := d
      have hp := List.pairwise_cons.1 h.1
      have hrest : Memory.wf rest := ⟨hp.2, fun c hc => h.2 c (by simp [hc])⟩
      unfold Memory.write
      split
      · split
        · exact h.1
        · refine List.pairwise_cons.2 ⟨fun c hc => ?_, h.1⟩
          rcases List.mem_cons.1 hc with rfl | hc
          · assumption
          · have := hp.1 c hc
            simp at this ⊢
            omega
      · split
        · split
          · exact hp.2
          · refine List.pairwise_cons.2 ⟨fun c hc => ?_, hp.2⟩
            have := hp.1 c hc
            simp at this ⊢
            omega
        · refine List.pairwise_cons.2 ⟨fun c hc => ?_, ih hrest⟩
          rcases Memory.mem_write hc with hc | ⟨rfl, -⟩
          · exact hp.1 c hc
          · simp
            omega
  · rcases Memory.mem_write hc with hc | ⟨rfl, hb⟩
    · exact h.2 c hc
    · exact hb

/-- A write to an offset of the array lists no offset outside it. -/
theorem Memory.write_keeps_bound {m : Memory} {n : Nat} (h : ∀ c ∈ m, c.1 < n) {off : Nat} (ho : off < n) (b : Byte) :
    ∀ c ∈ Memory.write m off b, c.1 < n := fun c hc => by
  rcases Memory.mem_write hc with hc | ⟨rfl, -⟩
  · exact h c hc
  · exact ho

/-- Two canonical memories that read alike everywhere are equal data. -/
theorem Memory.eq_of_read_eq {m m' : Memory} (h : m.wf) (h' : m'.wf)
    (hr : ∀ a, Memory.read m a = Memory.read m' a) : m = m' := by
  induction m generalizing m' with
  | nil =>
    cases m' with
    | nil => rfl
    | cons c rest =>
      obtain ⟨k, v⟩ := c
      have := hr k
      simp only [Memory.read, if_true] at this
      exact absurd this.symm (h'.2 (k, v) (by simp))
  | cons c rest ih =>
    obtain ⟨k, v⟩ := c
    have hp := List.pairwise_cons.1 h.1
    have hrest : Memory.wf rest := ⟨hp.2, fun c hc => h.2 c (by simp [hc])⟩
    have hv : v ≠ Memory.unlisted := h.2 (k, v) (by simp)
    cases m' with
    | nil =>
      have := hr k
      simp only [Memory.read, if_true] at this
      exact absurd this hv
    | cons c' rest' =>
      obtain ⟨k', v'⟩ := c'
      have hp' := List.pairwise_cons.1 h'.1
      have hrest' : Memory.wf rest' := ⟨hp'.2, fun c hc => h'.2 c (by simp [hc])⟩
      have hv' : v' ≠ Memory.unlisted := h'.2 (k', v') (by simp)
      have low : ∀ x, x ≤ k → Memory.read rest x = Memory.unlisted := fun x hx =>
        Memory.read_of_forall_ne fun c hc => by have := hp.1 c hc; simp at this; omega
      have low' : ∀ x, x ≤ k' → Memory.read rest' x = Memory.unlisted := fun x hx =>
        Memory.read_of_forall_ne fun c hc => by have := hp'.1 c hc; simp at this; omega
      have hk : k = k' := by
        rcases Nat.lt_trichotomy k k' with hlt | heq | hgt
        · have := hr k
          simp only [Memory.read, if_true, if_neg (by omega : ¬k' = k), low' k (by omega)] at this
          exact absurd this hv
        · exact heq
        · have := hr k'
          simp only [Memory.read, if_true, if_neg (by omega : ¬k = k'), low k' (by omega)] at this
          exact absurd this.symm hv'
      subst hk
      have hvv : v = v' := by simpa [Memory.read] using hr k
      subst hvv
      congr 1
      refine ih hrest hrest' fun a => ?_
      by_cases ha : k = a
      · subst ha
        rw [low k (by omega), low' k (by omega)]
      · simpa [Memory.read, ha] using hr a

/-- A store keeps the canonical form and the offsets below SIZE. -/
theorem State.store_keeps {s : State} (hw : Memory.wf s.storage) (hb : ∀ c ∈ s.storage, c.1 < s.cfg.size) {off : Nat}
    (ho : off < s.cfg.size) (b : Byte) :
    Memory.wf (s.store off b).storage ∧ ∀ c ∈ (s.store off b).storage, c.1 < s.cfg.size :=
  ⟨Memory.write_keeps_wf hw off b, Memory.write_keeps_bound hb ho b⟩

/-- Storage right after reset is in canonical form. -/
theorem State.reset_storage_wf : Memory.wf State.reset.storage := by decide

/-- One storage write: the byte there, every other byte as before. -/
theorem State.load_store {s : State} (h : Memory.wf s.storage) (off : Nat) (b : Byte) (a : Nat) :
    (s.store off b).load a = if a = off then b else s.load a := Memory.read_write h off b a

end Sys2Proof.Machine
end

