-- ==== Sys2Proof/Laws/Runs.lean ====
section
/-! SUPPORT. Byte runs: what a run of loads yields, what a run of stores changes and leaves, the scans of READ_UNTIL and
SYNC_TO_BYTE. -/

namespace Sys2Proof.Machine

/-! ### Loads -/

@[simp] theorem State.length_loadRun (s : State) (c m : Nat) : (s.loadRun c m).length = m := by simp [State.loadRun]

@[simp] theorem State.getElem_loadRun (s : State) (c m i : Nat) (h : i < (s.loadRun c m).length) :
    (s.loadRun c m)[i] = s.load (s.offset (s.cursorAdd c i)) := by simp [State.loadRun]

@[simp] theorem State.length_unread (s : State) : s.unread.length = s.count := by simp [State.unread]

/-- Unread byte `j` is the byte at logical index `read + j`. -/
theorem State.getElem_unread (s : State) (j : Nat) (h : j < s.unread.length) :
    s.unread[j] = s.load (s.offset (s.cursorAdd s.read j)) := State.getElem_loadRun s s.read s.count j h

/-- Two runs of one length are equal if they read alike byte by byte. -/
theorem State.loadRun_congr {s t : State} {c d m : Nat}
    (h : ∀ i < m, s.load (s.offset (s.cursorAdd c i)) = t.load (t.offset (t.cursorAdd d i))) :
    s.loadRun c m = t.loadRun d m := by
  refine List.ext_getElem (by simp) fun i hi _ => ?_
  simpa using h i (by simpa using hi)

theorem State.take_loadRun (s : State) (c : Nat) {k m : Nat} (h : k ≤ m) : (s.loadRun c m).take k = s.loadRun c k := by
  refine List.ext_getElem (by simp [h]) fun i hi _ => by simp

/-- Dropping bytes off the front of a run is a run from the advanced cursor. -/
theorem State.drop_loadRun {s : State} (h : s.cfg.Valid) (c k m : Nat) :
    (s.loadRun c m).drop k = s.loadRun (s.cursorAdd c k) (m - k) := by
  refine List.ext_getElem (by simp) fun i hi _ => ?_
  simp only [List.getElem_drop, State.getElem_loadRun]
  rw [State.offset_cursorAdd h, State.offset_cursorAdd h]
  congr 1
  have : (wrapAdd s.cfg.cursorModulus c k + i) % s.cfg.size = (c + k + i) % s.cfg.size := by
    rw [Nat.add_mod, wrapAdd, mod_cursorModulus_mod_size h, ← Nat.add_mod]
  simp only [State.cursorAdd, this, Nat.add_assoc]

theorem State.loadRun_append {s : State} (h : s.cfg.Valid) (c k m : Nat) :
    s.loadRun c (k + m) = s.loadRun c k ++ s.loadRun (s.cursorAdd c k) m := by
  have h1 := State.take_loadRun s c (Nat.le_add_right k m)
  have h2 := State.drop_loadRun h c k (k + m)
  rw [Nat.add_sub_cancel_left] at h2
  rw [← h1, ← h2, List.take_append_drop]

/-! ### Stores -/

section
variable (s : State) (c i : Nat) (bs : List Byte)

/-- A run of stores changes storage and nothing else. -/
theorem State.storeRunFrom_eq :
    s.storeRunFrom c i bs = { s with storage := (s.storeRunFrom c i bs).storage } := by
  induction bs generalizing s i with
  | nil => rfl
  | cons b bs ih => rw [State.storeRunFrom, ih]; rfl

@[simp] theorem State.storeRunFrom_cfg : (s.storeRunFrom c i bs).cfg = s.cfg := by rw [State.storeRunFrom_eq]
@[simp] theorem State.storeRunFrom_write : (s.storeRunFrom c i bs).write = s.write := by rw [State.storeRunFrom_eq]
@[simp] theorem State.storeRunFrom_read : (s.storeRunFrom c i bs).read = s.read := by rw [State.storeRunFrom_eq]
@[simp] theorem State.storeRunFrom_dmaCnt : (s.storeRunFrom c i bs).dmaCnt = s.dmaCnt := by rw [State.storeRunFrom_eq]
@[simp] theorem State.storeRunFrom_fullCnt : (s.storeRunFrom c i bs).fullCnt = s.fullCnt := by
  rw [State.storeRunFrom_eq]
@[simp] theorem State.storeRunFrom_fault : (s.storeRunFrom c i bs).fault = s.fault := by rw [State.storeRunFrom_eq]
@[simp] theorem State.storeRunFrom_cause : (s.storeRunFrom c i bs).cause = s.cause := by rw [State.storeRunFrom_eq]
@[simp] theorem State.storeRunFrom_queueP : (s.storeRunFrom c i bs).queueP = s.queueP := by rw [State.storeRunFrom_eq]
@[simp] theorem State.storeRunFrom_queueC : (s.storeRunFrom c i bs).queueC = s.queueC := by rw [State.storeRunFrom_eq]
@[simp] theorem State.storeRunFrom_arrival : (s.storeRunFrom c i bs).arrival = s.arrival := by
  rw [State.storeRunFrom_eq]
@[simp] theorem State.storeRunFrom_answers : (s.storeRunFrom c i bs).answers = s.answers := by
  rw [State.storeRunFrom_eq]
@[simp] theorem State.storeRunFrom_schedule : (s.storeRunFrom c i bs).schedule = s.schedule := by
  rw [State.storeRunFrom_eq]

end

/-- A run of stores keeps the canonical form and stores only to offsets of the array. -/
theorem State.storeRunFrom_keeps {s : State} (c i : Nat) (bs : List Byte) (hw : Memory.wf s.storage)
    (hb : ∀ c ∈ s.storage, c.1 < s.cfg.size) :
    Memory.wf (s.storeRunFrom c i bs).storage ∧ ∀ x ∈ (s.storeRunFrom c i bs).storage, x.1 < s.cfg.size := by
  induction bs generalizing s i with
  | nil => exact ⟨hw, hb⟩
  | cons b bs ih =>
    exact ih (s := s.store _ b) (i + 1) (Memory.write_keeps_wf hw _ _)
      (Memory.write_keeps_bound hb (State.offset_lt s _) b)

/-- A byte outside the offsets of the run is as before. -/
theorem State.load_storeRunFrom_other {s : State} (c i : Nat) (bs : List Byte) (hw : Memory.wf s.storage) (a : Nat)
    (ha : ∀ k < bs.length, a ≠ s.offset (s.cursorAdd c (i + k))) : (s.storeRunFrom c i bs).load a = s.load a := by
  induction bs generalizing s i with
  | nil => rfl
  | cons b bs ih =>
    have h0 : a ≠ s.offset (s.cursorAdd c i) := ha 0 (by simp)
    rw [State.storeRunFrom, ih (i + 1) (Memory.write_keeps_wf hw _ _), State.load_store hw, if_neg h0]
    intro k hk
    have := ha (k + 1) (by simpa using hk)
    rwa [show i + (k + 1) = i + 1 + k by omega] at this

/-- Two different indices below SIZE of one transfer are at different offsets (rule R53). -/
theorem State.offset_cursorAdd_inj {s : State} (h : s.cfg.Valid) {c i j : Nat}
    (he : s.offset (s.cursorAdd c i) = s.offset (s.cursorAdd c j)) (hij : i < j + s.cfg.size) (hji : j < i + s.cfg.size) :
    i = j := by
  rw [State.offset_cursorAdd h, State.offset_cursorAdd h] at he
  have h1 : (c + i) ≡ (c + j) [MOD s.cfg.size] := he
  have h2 : i ≡ j [MOD s.cfg.size] := Nat.ModEq.add_left_cancel' c h1
  rcases Nat.le_total i j with hle | hle
  · have := (Nat.modEq_iff_dvd' hle).1 h2
    obtain ⟨q, hq⟩ := this
    have : q = 0 := by
      by_contra hne
      have : s.cfg.size ≤ s.cfg.size * q := Nat.le_mul_of_pos_right _ (by omega)
      omega
    subst this
    omega
  · have := (Nat.modEq_iff_dvd' hle).1 h2.symm
    obtain ⟨q, hq⟩ := this
    have : q = 0 := by
      by_contra hne
      have : s.cfg.size ≤ s.cfg.size * q := Nat.le_mul_of_pos_right _ (by omega)
      omega
    subst this
    omega

/-- Byte `k` of a run no longer than SIZE is at its offset afterwards. -/
theorem State.load_storeRunFrom {s : State} (hv : s.cfg.Valid) (c i : Nat) (bs : List Byte) (hw : Memory.wf s.storage)
    (hl : bs.length ≤ s.cfg.size) (k : Nat) (hk : k < bs.length) :
    (s.storeRunFrom c i bs).load (s.offset (s.cursorAdd c (i + k))) = bs[k] := by
  induction bs generalizing s i k with
  | nil => simp at hk
  | cons b bs ih =>
    simp only [List.length_cons] at hl hk
    cases k with
    | zero =>
      have hne : ∀ j < bs.length, s.offset (s.cursorAdd c (i + 0)) ≠ s.offset (s.cursorAdd c (i + 1 + j)) := by
        intro j hj he
        have := State.offset_cursorAdd_inj hv he (by omega) (by omega)
        omega
      rw [State.storeRunFrom, State.load_storeRunFrom_other (s := s.store _ b) c (i + 1) bs
        (Memory.write_keeps_wf hw _ _) _ hne, State.load_store hw]
      simp
    | succ k =>
      have := ih (s := s.store (s.offset (s.cursorAdd c i)) b) hv (i + 1) (Memory.write_keeps_wf hw _ _)
        (by simp; omega) k (by omega)
      rw [show i + (k + 1) = i + 1 + k by omega]
      exact this

/-! ### Scans -/

/-- READ_UNTIL copies a prefix of the scanned bytes. -/
theorem emitUntil_eq_take (d : Byte) (l : List Byte) : emitUntil d l = l.take (emitUntil d l).length := by
  induction l with
  | nil => rfl
  | cons b bs ih =>
    unfold emitUntil
    split
    · simp
    · rw [List.length_cons, List.take_succ_cons, ← ih]

theorem length_emitUntil_le (d : Byte) (l : List Byte) : (emitUntil d l).length ≤ l.length := by
  rw [emitUntil_eq_take]
  simp

/-- With the first delimiter at index `k`, exactly the bytes `0..k` are copied (rule R156). -/
theorem length_emitUntil_of_first {d : Byte} {l : List Byte} {k : Nat} (hk : k < l.length) (hd : l[k] = d)
    (first : ∀ (j : Nat) (hj : j < k), l[j]'(by omega) ≠ d) : (emitUntil d l).length = k + 1 := by
  induction l generalizing k with
  | nil => simp at hk
  | cons b bs ih =>
    cases k with
    | zero => simp at hd; simp [emitUntil, hd]
    | succ k =>
      have h0 : b ≠ d := first 0 (by omega)
      simp only [emitUntil, if_neg h0, List.length_cons]
      rw [ih (by simpa using hk) (by simpa using hd) fun j hj => by simpa using first (j + 1) (by omega)]

/-- With no delimiter all scanned bytes are copied (rule R156). -/
theorem emitUntil_of_not_mem {d : Byte} {l : List Byte} (h : d ∉ l) : emitUntil d l = l := by
  induction l with
  | nil => rfl
  | cons b bs ih =>
    simp only [List.mem_cons, not_or] at h
    simp only [emitUntil, if_neg (fun he : b = d => h.1 he.symm), ih h.2]

theorem dropsBefore_le (m : Byte) (l : List Byte) : dropsBefore m l ≤ l.length := by
  induction l with
  | nil => simp [dropsBefore]
  | cons b bs ih =>
    unfold dropsBefore
    split
    · omega
    · simp only [List.length_cons]
      omega

/-- No byte before the point SYNC_TO_BYTE stops at equals the marker. -/
theorem ne_of_lt_dropsBefore {m : Byte} {l : List Byte} {j : Nat} (h : j < dropsBefore m l) :
    l[j]'(Nat.lt_of_lt_of_le h (dropsBefore_le m l)) ≠ m := by
  induction l generalizing j with
  | nil => simp [dropsBefore] at h
  | cons b bs ih =>
    unfold dropsBefore at h
    split at h
    · omega
    · cases j with
      | zero => simpa
      | succ j => simpa using ih (j := j) (by omega)

/-- The byte SYNC_TO_BYTE stops at is the marker. -/
theorem getElem_dropsBefore {m : Byte} {l : List Byte} (h : dropsBefore m l < l.length) : l[dropsBefore m l] = m := by
  induction l with
  | nil => simp at h
  | cons b bs ih =>
    by_cases hb : b = m
    · simp [dropsBefore, hb]
    · simp only [dropsBefore, if_neg hb, List.length_cons] at h ⊢
      simpa using ih (by omega)

end Sys2Proof.Machine
end

