-- ==== Sys2Proof/Laws/Commit.lean ====
section
/-! SUPPORT. How the wrapping difference of the cursors answers to their moves, and what Commit (rule R131) does. -/

namespace Sys2Proof.Machine

/-! ### The distance between two cursors -/

section
variable {M a b k : Nat}

/-- Moving the leading cursor adds to the distance, as long as it stays below the modulus. -/
theorem wrapSub_wrapAdd_left (ha : a < M) (hb : b < M) (h : wrapSub M a b + k < M) :
    wrapSub M (wrapAdd M a k) b = wrapSub M a b + k := by
  rw [wrapSub_eq ha hb] at *
  have hk : k ≤ M := by split at h <;> omega
  rw [wrapSub_eq (wrapAdd_lt (by omega) _ _) hb, wrapAdd_eq ha hk]
  split at h <;> split <;> split <;> omega

/-- Moving the trailing cursor takes from the distance, as long as it does not pass the leading one. -/
theorem wrapSub_wrapAdd_right (ha : a < M) (hb : b < M) (h : k ≤ wrapSub M a b) :
    wrapSub M a (wrapAdd M b k) = wrapSub M a b - k := by
  rw [wrapSub_eq ha hb] at *
  have hk : k ≤ M := by split at h <;> omega
  rw [wrapSub_eq ha (wrapAdd_lt (by omega) _ _), wrapAdd_eq hb hk]
  split at h <;> split <;> split <;> omega

/-- The distance to a cursor placed `k` behind is `k`. -/
theorem wrapSub_wrapSub (ha : a < M) (hk : k < M) : wrapSub M a (wrapSub M a k) = k := by
  rw [wrapSub_eq ha (wrapSub_lt (by omega) _ _), wrapSub_eq ha hk]
  split <;> split <;> omega

/-- Going back and forth by the same distance. -/
theorem wrapAdd_wrapSub (ha : a < M) (hk : k < M) : wrapAdd M (wrapSub M a k) k = a := by
  rw [wrapAdd_eq (wrapSub_lt (by omega) _ _) (by omega), wrapSub_eq ha hk]
  split <;> split <;> omega

/-- The leading cursor is the trailing one moved by the distance. -/
theorem wrapAdd_distance (ha : a < M) (hb : b < M) : wrapAdd M b (wrapSub M a b) = a := by
  rw [wrapAdd_eq hb (wrapSub_lt (by omega) _ _).le, wrapSub_eq ha hb]
  split <;> split <;> omega

theorem wrapAdd_assoc (j : Nat) : wrapAdd M (wrapAdd M a k) j = wrapAdd M a (k + j) := by
  simp [wrapAdd, Nat.add_assoc]

theorem wrapAdd_zero (ha : a < M) : wrapAdd M a 0 = a := by simp [wrapAdd, Nat.mod_eq_of_lt ha]

end

theorem State.cursorAdd_lt (s : State) (c i : Nat) : s.cursorAdd c i < s.cfg.cursorModulus :=
  wrapAdd_lt (Config.cursorModulus_pos _) _ _

theorem State.cursorSub_lt (s : State) (a b : Nat) : s.cursorSub a b < s.cfg.cursorModulus :=
  wrapSub_lt (Config.cursorModulus_pos _) _ _

/-! ### Commit -/

/-- What a commit does: with enough free slots `write` moves; otherwise the overwrite also fires (rule R131). -/
theorem State.commit_cases (s : State) (m : Nat) :
    (m ≤ s.free ∧ s.commit m = s.advanceWrite m) ∨
    (s.free < m ∧ s.commit m = (s.advanceWrite m).overwriteOldest) := by
  unfold State.commit
  split
  · exact .inr ⟨‹_›, rfl⟩
  · exact .inl ⟨by omega, rfl⟩

section
variable (s : State) (m : Nat)

@[simp] theorem State.commit_cfg : (s.commit m).cfg = s.cfg := by unfold State.commit; split <;> rfl
@[simp] theorem State.commit_write : (s.commit m).write = s.cursorAdd s.write m := by unfold State.commit; split <;> rfl
@[simp] theorem State.commit_dmaCnt : (s.commit m).dmaCnt = s.dmaCnt := by unfold State.commit; split <;> rfl
@[simp] theorem State.commit_fault : (s.commit m).fault = s.fault := by unfold State.commit; split <;> rfl
@[simp] theorem State.commit_cause : (s.commit m).cause = s.cause := by unfold State.commit; split <;> rfl
@[simp] theorem State.commit_storage : (s.commit m).storage = s.storage := by unfold State.commit; split <;> rfl
@[simp] theorem State.commit_queueP : (s.commit m).queueP = s.queueP := by unfold State.commit; split <;> rfl
@[simp] theorem State.commit_queueC : (s.commit m).queueC = s.queueC := by unfold State.commit; split <;> rfl
@[simp] theorem State.commit_arrival : (s.commit m).arrival = s.arrival := by unfold State.commit; split <;> rfl
@[simp] theorem State.commit_answers : (s.commit m).answers = s.answers := by unfold State.commit; split <;> rfl
@[simp] theorem State.commit_schedule : (s.commit m).schedule = s.schedule := by unfold State.commit; split <;> rfl

theorem State.commit_read : (s.commit m).read =
    if m > s.free then s.cursorSub (s.cursorAdd s.write m) s.cfg.mask else s.read := by
  unfold State.commit; split <;> rfl

theorem State.commit_fullCnt : (s.commit m).fullCnt = if m > s.free then s.fullCnt + 1 else s.fullCnt := by
  unfold State.commit; split <;> rfl

end

/-- A run of stores does not change what a commit needs to know. -/
@[simp] theorem State.storeRunFrom_free (s : State) (c i : Nat) (bs : List Byte) :
    (s.storeRunFrom c i bs).free = s.free := by
  simp [State.free, State.count_congr (s := s.storeRunFrom c i bs) (t := s) (by simp) (by simp) (by simp)]

/-! ### The delta of DMA_ADVANCE -/

/-- The delta of a reconciliation is below SIZE (rule R172). -/
theorem wrapSub_size_lt (c : Config) (a b : Nat) : wrapSub c.size a b < c.size := wrapSub_lt (Config.size_pos c) a b

theorem clampSample_le (size : Nat) (v : Int) : clampSample size v ≤ size := by
  unfold clampSample
  split
  · omega
  · split <;> omega

theorem producedOf_lt {size : Nat} (h : 0 < size) (v : Int) : producedOf size v < size := Nat.mod_lt _ h

end Sys2Proof.Machine
end

