-- ==== Sys2Proof/Laws/Exec.lean ====
section
/-! SUPPORT. What an instruction can do, said once: `accept` and the inversion of `exec`. Later proofs split over
`Completes` instead of unfolding the meanings. -/

namespace Sys2Proof.Machine

/-- The state a contract violation leaves (rule R205). -/
def State.violated (s : State) (c : Cause) : State := { s with fault := true, cause := c.code }.answerErr

theorem raiseFault_eq (c : Cause) (s : State) : raiseFault c s = .next (s.violated c) := rfl

section
variable (s : State) (c : Cause)
@[simp] theorem State.violated_cfg : (s.violated c).cfg = s.cfg := rfl
@[simp] theorem State.violated_write : (s.violated c).write = s.write := rfl
@[simp] theorem State.violated_read : (s.violated c).read = s.read := rfl
@[simp] theorem State.violated_dmaCnt : (s.violated c).dmaCnt = s.dmaCnt := rfl
@[simp] theorem State.violated_fullCnt : (s.violated c).fullCnt = s.fullCnt := rfl
@[simp] theorem State.violated_fault : (s.violated c).fault = true := rfl
@[simp] theorem State.violated_cause : (s.violated c).cause = c.code := rfl
@[simp] theorem State.violated_storage : (s.violated c).storage = s.storage := rfl
@[simp] theorem State.violated_queueP : (s.violated c).queueP = s.queueP := rfl
@[simp] theorem State.violated_queueC : (s.violated c).queueC = s.queueC := rfl
@[simp] theorem State.violated_arrival : (s.violated c).arrival = s.arrival := rfl
@[simp] theorem State.violated_schedule : (s.violated c).schedule = s.schedule := rfl
@[simp] theorem State.violated_answers :
    (s.violated c).answers = s.answers ++ [{ port := s.arrival.port, err := true, result := 0, data := [] }] := rfl
end

/-- A CAUSE code is one of 0x1 to 0x7 (rule R204). -/
theorem Cause.code_range (c : Cause) : 1 ≤ c.code.toNat ∧ c.code.toNat ≤ 7 := by cases c <;> decide

/-! ### accept -/

/-- A command that Decode lets through runs its own rule. -/
theorem accept_of_ready {i : Instr} {s : State} (h : s.Ready i) (body : State → Result) : accept i body s = body s := by
  obtain ⟨hv, hf, hl, hp⟩ := h
  simp [accept, hv, hf, hl, hp]

/-- Everything `accept` can do. -/
theorem accept_cases (i : Instr) (body : State → Result) (s : State) :
    (¬ s.cfg.Valid ∧ accept i body s = .refused .invalidConfiguration) ∨
    (s.cfg.Valid ∧ s.fault = true ∧ accept i body s = .next s.answerErr) ∨
    (s.cfg.Valid ∧ s.fault = false ∧ i.opcode.legalOn s.arrival.port = false ∧
      accept i body s = .next (s.violated .roleViolation)) ∨
    (s.cfg.Valid ∧ s.fault = false ∧ i.opcode.legalOn s.arrival.port = true ∧
      s.arrival.payload.length ≠ i.payloadLength ∧ accept i body s = .next (s.violated .payloadLength)) ∨
    (s.Ready i ∧ accept i body s = body s) := by
  by_cases hv : s.cfg.Valid
  · cases hf : s.fault with
    | true => exact .inr (.inl ⟨hv, rfl, by simp [accept, hv, hf]⟩)
    | false =>
      cases hl : i.opcode.legalOn s.arrival.port with
      | false => exact .inr (.inr (.inl ⟨hv, rfl, rfl, by simp [accept, hv, hf, hl, raiseFault_eq]⟩))
      | true =>
        by_cases hp : s.arrival.payload.length = i.payloadLength
        · exact .inr (.inr (.inr (.inr ⟨⟨hv, hf, hl, hp⟩, accept_of_ready ⟨hv, hf, hl, hp⟩ body⟩)))
        · exact .inr (.inr (.inr (.inl ⟨hv, rfl, rfl, hp, by simp [accept, hv, hf, hl, hp, raiseFault_eq]⟩)))
  · exact .inl ⟨hv, by simp [accept, hv]⟩

/-- On a port where it is not legal a command raises ROLE_VIOLATION (rule R207). -/
theorem accept_wrong_port {i : Instr} {s : State} (hv : s.cfg.Valid) (hf : s.fault = false)
    (hl : i.opcode.legalOn s.arrival.port = false) (body : State → Result) :
    accept i body s = .next (s.violated .roleViolation) := by
  unfold accept
  rw [if_neg (not_not.2 hv), if_neg (by simp [hf]), if_pos hl, raiseFault_eq]

/-- With a payload of the wrong length a command raises PAYLOAD_LENGTH (rule R80). -/
theorem accept_wrong_payload {i : Instr} {s : State} (hv : s.cfg.Valid) (hf : s.fault = false)
    (hl : i.opcode.legalOn s.arrival.port = true) (hp : s.arrival.payload.length ≠ i.payloadLength)
    (body : State → Result) : accept i body s = .next (s.violated .payloadLength) := by
  unfold accept
  rw [if_neg (not_not.2 hv), if_neg (by simp [hf]), if_neg (by simp [hl]), if_pos hp, raiseFault_eq]

/-! ### exec -/

/-- With FAULT = 0 every instruction is its own rule behind `accept`. -/
theorem exec_eq_accept (i : Instr) {s : State} (hf : s.fault = false) : ∃ body, exec i s = accept i body s := by
  cases i <;> simp only [exec]
  case init => exact ⟨_, by rw [execInit]⟩
  case write n => exact ⟨_, by rw [execWrite]⟩
  case dmaAdvance v => exact ⟨_, by rw [execDmaAdvance]⟩
  case read n => exact ⟨_, by rw [execRead]⟩
  case readUntil n d => exact ⟨_, by rw [execReadUntil]⟩
  case syncToByte m => exact ⟨_, by rw [execSyncToByte]⟩
  case isEmpty => exact ⟨_, by rw [execIsEmpty]⟩
  case isFull => exact ⟨_, by rw [execIsFull]⟩
  case dataCount => exact ⟨_, by rw [execDataCount]⟩
  case emptyCount => exact ⟨_, by rw [execEmptyCount]⟩
  case contigDataCount => exact ⟨_, by rw [execContigDataCount]⟩
  case contigEmptyCount => exact ⟨_, by rw [execContigEmptyCount]⟩
  case fullCount => exact ⟨_, by rw [execFullCount]⟩
  case status => exact ⟨_, by rw [execStatus, if_neg (by simp [hf])]⟩

/-- What each command's own rule leaves, violations apart. -/
inductive Completes : Instr → State → State → Prop where
  | init (s : State) :
    Completes .init s ({ s with write := 0, read := 0, dmaCnt := 0, fullCnt := 0 }.answer 0 [])
  | writeRejected (s : State) (n : OperandWord) (h : s.cfg.size ≤ n.toNat) :
    Completes (.write n) s (s.answer 0 [])
  | write (s : State) (n : OperandWord) (h0 : 0 < n.toNat) (h : n.toNat < s.cfg.size)
    (hp : s.arrival.payload.length = n.toNat) :
    Completes (.write n) s ((s.writePayload n.toNat).answer (resultOfNat n.toNat) [])
  | dmaAdvance (s : State) (v : OperandWord) :
    Completes (.dmaAdvance v) s ((s.reconcile (producedOf s.cfg.size v.toInt)).answer 0 [])
  | read (s : State) (n : OperandWord) (h0 : 0 < n.toNat) :
    Completes (.read n) s (s.consume (s.loadRun s.read (min n.toNat s.count)))
  | readUntil (s : State) (n : OperandWord) (d : Byte) (h0 : 0 < n.toNat) :
    Completes (.readUntil n d) s (s.consume (emitUntil d (s.loadRun s.read (min n.toNat s.count))))
  | syncToByte (s : State) (b : Byte) :
    Completes (.syncToByte b) s ((s.advanceRead (dropsBefore b s.unread)).answer 0 [])
  | isEmpty (s : State) : Completes .isEmpty s (s.answer (resultOfBool s.isEmpty) [])
  | isFull (s : State) : Completes .isFull s (s.answer (resultOfBool s.isFull) [])
  | dataCount (s : State) : Completes .dataCount s (s.answer (resultOfNat s.count) [])
  | emptyCount (s : State) : Completes .emptyCount s (s.answer (resultOfNat s.free) [])
  | contigDataCount (s : State) : Completes .contigDataCount s (s.answer (resultOfNat s.contigData) [])
  | contigEmptyCount (s : State) : Completes .contigEmptyCount s (s.answer (resultOfNat s.contigEmpty) [])
  | fullCount (s : State) : Completes .fullCount s (s.answer s.fullCnt [])
  | status (s : State) : Completes .status s (s.answer s.statusWord [])

/-- Which contract violation a decoded command that arrives while FAULT is 0 commits (rules R81, R204, R208). -/
inductive Violates : Instr → State → Cause → Prop where
  | role {i : Instr} {s : State} (h : i.opcode.legalOn s.arrival.port = false) : Violates i s .roleViolation
  | payload {i : Instr} {s : State} (h : i.opcode.legalOn s.arrival.port = true)
    (hp : s.arrival.payload.length ≠ i.payloadLength) : Violates i s .payloadLength
  | zeroWrite {s : State} {n : OperandWord} (hr : s.Ready (.write n)) (h : n.toNat = 0) :
    Violates (.write n) s .zeroLengthWrite
  | zeroRead {s : State} {n : OperandWord} (hr : s.Ready (.read n)) (h : n.toNat = 0) :
    Violates (.read n) s .zeroLengthRead
  | zeroReadUntil {s : State} {n : OperandWord} {d : Byte} (hr : s.Ready (.readUntil n d)) (h : n.toNat = 0) :
    Violates (.readUntil n d) s .zeroLengthReadUntil

/-- The ways an instruction that answers a next state can go: it arrived while FAULT was 1, it committed a contract
violation, or its own rule ran (for STATUS also while FAULT was 1). -/
inductive Ran (i : Instr) (s s' : State) : Prop where
  | faulted (hf : s.fault = true) (hx : ¬(i = .status ∧ s.arrival.payload = [])) (h : s' = s.answerErr)
  | violated (hf : s.fault = false) (c : Cause) (hc : Violates i s c) (h : s' = s.violated c)
  | completed (hr : s.Ready i ∨ i = .status ∧ s.fault = true ∧ s.arrival.payload = []) (h : Completes i s s')

/-- An outcome that is refused for its configuration or a next state of one of the three kinds. -/
def RanOr (i : Instr) (s : State) (r : Result) : Prop :=
  (¬ s.cfg.Valid ∧ r = .refused .invalidConfiguration) ∨ (s.cfg.Valid ∧ ∃ s', r = .next s' ∧ Ran i s s')

theorem ranOr_accept {i : Instr} {body : State → Result} {s : State}
    (hx : s.cfg.Valid → s.fault = true → ¬(i = .status ∧ s.arrival.payload = []))
    (h : s.Ready i → (∃ s', body s = .next s' ∧ Completes i s s') ∨
      ∃ c, Violates i s c ∧ body s = .next (s.violated c)) :
    RanOr i s (accept i body s) := by
  rcases accept_cases i body s with ⟨hv, h1⟩ | ⟨hv, hf, h1⟩ | ⟨hv, hf, hl, h1⟩ | ⟨hv, hf, hl, hp, h1⟩ | ⟨hr, h1⟩
  · exact .inl ⟨hv, h1⟩
  · exact .inr ⟨hv, _, h1, .faulted hf (hx hv hf) rfl⟩
  · exact .inr ⟨hv, _, h1, .violated hf _ (.role hl) rfl⟩
  · exact .inr ⟨hv, _, h1, .violated hf _ (.payload hl hp) rfl⟩
  · rcases h hr with ⟨s', h2, hc⟩ | ⟨c, hc, h2⟩
    · exact .inr ⟨hr.1, s', h1.trans h2, .completed (.inl hr) hc⟩
    · exact .inr ⟨hr.1, _, h1.trans h2, .violated hr.2.1 c hc rfl⟩

/-- Everything an instruction can do. -/
theorem exec_ranOr (i : Instr) (s : State) : RanOr i s (exec i s) := by
  cases i with
  | init =>
    simp only [exec, execInit]
    exact ranOr_accept (by simp) fun _ => .inl ⟨_, rfl, .init s⟩
  | write n =>
    simp only [exec, execWrite]
    refine ranOr_accept (by simp) fun hr => ?_
    by_cases h0 : operandN n = 0
    · exact .inr ⟨.zeroLengthWrite, .zeroWrite hr h0, by simp [h0, raiseFault_eq]⟩
    · by_cases h : operandN n ≥ s.cfg.size
      · exact .inl ⟨_, by simp [h0, h], .writeRejected s n h⟩
      · exact .inl ⟨_, by simp [h0, h]; rfl, .write s n (Nat.pos_of_ne_zero h0) (by simpa [operandN] using h) hr.2.2.2⟩
  | dmaAdvance v =>
    simp only [exec, execDmaAdvance]
    exact ranOr_accept (by simp) fun _ => .inl ⟨_, rfl, .dmaAdvance s v⟩
  | read n =>
    simp only [exec, execRead]
    refine ranOr_accept (by simp) fun hr => ?_
    by_cases h0 : operandN n = 0
    · exact .inr ⟨.zeroLengthRead, .zeroRead hr h0, by simp [h0, raiseFault_eq]⟩
    · exact .inl ⟨_, by simp [h0]; rfl, .read s n (Nat.pos_of_ne_zero h0)⟩
  | readUntil n d =>
    simp only [exec, execReadUntil]
    refine ranOr_accept (by simp) fun hr => ?_
    by_cases h0 : operandN n = 0
    · exact .inr ⟨.zeroLengthReadUntil, .zeroReadUntil hr h0, by simp [h0, raiseFault_eq]⟩
    · exact .inl ⟨_, by simp [h0]; rfl, .readUntil s n d (Nat.pos_of_ne_zero h0)⟩
  | syncToByte b =>
    simp only [exec, execSyncToByte]
    exact ranOr_accept (by simp) fun _ => .inl ⟨_, rfl, .syncToByte s b⟩
  | isEmpty =>
    simp only [exec, execIsEmpty]
    exact ranOr_accept (by simp) fun _ => .inl ⟨_, rfl, .isEmpty s⟩
  | isFull =>
    simp only [exec, execIsFull]
    exact ranOr_accept (by simp) fun _ => .inl ⟨_, rfl, .isFull s⟩
  | dataCount =>
    simp only [exec, execDataCount]
    exact ranOr_accept (by simp) fun _ => .inl ⟨_, rfl, .dataCount s⟩
  | emptyCount =>
    simp only [exec, execEmptyCount]
    exact ranOr_accept (by simp) fun _ => .inl ⟨_, rfl, .emptyCount s⟩
  | contigDataCount =>
    simp only [exec, execContigDataCount]
    exact ranOr_accept (by simp) fun _ => .inl ⟨_, rfl, .contigDataCount s⟩
  | contigEmptyCount =>
    simp only [exec, execContigEmptyCount]
    exact ranOr_accept (by simp) fun _ => .inl ⟨_, rfl, .contigEmptyCount s⟩
  | fullCount =>
    simp only [exec, execFullCount]
    exact ranOr_accept (by simp) fun _ => .inl ⟨_, rfl, .fullCount s⟩
  | status =>
    by_cases h : s.cfg.Valid ∧ s.fault = true ∧ s.arrival.payload = []
    · refine .inr ⟨h.1, s.answer s.statusWord [], ?_, .completed (.inr ⟨rfl, h.2⟩) (.status s)⟩
      exact if_pos h
    · have he : exec .status s = accept .status (fun s => .next (s.answer s.statusWord [])) s := if_neg h
      rw [he]
      exact ranOr_accept (fun hv hf hx => h ⟨hv, hf, hx.2⟩) fun _ => .inl ⟨_, rfl, .status s⟩

/-- What a next state of an instruction is. -/
theorem exec_next {i : Instr} {s s' : State} (h : exec i s = .next s') : s.cfg.Valid ∧ Ran i s s' := by
  rcases exec_ranOr i s with ⟨-, hr⟩ | ⟨hv, t, ht, hr⟩
  · rw [h] at hr
    cases hr
  · rw [h] at ht
    cases ht
    exact ⟨hv, hr⟩

/-- With a valid configuration every instruction answers a next state. -/
theorem exec_answers_next {s : State} (h : s.cfg.Valid) (i : Instr) : ∃ s', exec i s = .next s' := by
  rcases exec_ranOr i s with ⟨hv, -⟩ | ⟨-, t, ht, -⟩
  · exact absurd h hv
  · exact ⟨t, ht⟩

/-! ### What no instruction changes -/

/-- The fields that belong to the interface or are constant. -/
abbrev SameInterface (s t : State) : Prop :=
  t.cfg = s.cfg ∧ t.queueP = s.queueP ∧ t.queueC = s.queueC ∧ t.arrival = s.arrival ∧ t.schedule = s.schedule

/-- No command's own rule changes the configuration, the waiting commands, the latch or the schedule. -/
theorem Completes.sameInterface {i : Instr} {s t : State} (h : Completes i s t) : SameInterface s t := by
  cases h <;> simp [SameInterface, State.writePayload, State.reconcile, State.consume]

/-- No command's own rule writes FAULT or CAUSE (rule R34). -/
theorem Completes.fault {i : Instr} {s t : State} (h : Completes i s t) : t.fault = s.fault ∧ t.cause = s.cause := by
  cases h <;> simp [State.writePayload, State.reconcile, State.consume]

/-- Every command's own rule answers once, with `ERR = 0`, on the port the command arrived on (rule R71). -/
theorem Completes.answers {i : Instr} {s t : State} (h : Completes i s t) :
    ∃ r d, t.answers = s.answers ++ [{ port := s.arrival.port, err := false, result := r, data := d }] := by
  cases h <;> exact ⟨_, _, by simp [State.writePayload, State.reconcile, State.consume]; exact ⟨rfl, rfl⟩⟩

/-- No instruction changes the configuration, the waiting commands, the latch or the schedule. -/
theorem Ran.sameInterface {i : Instr} {s t : State} (h : Ran i s t) : SameInterface s t := by
  cases h with
  | faulted _ _ h => subst h; exact ⟨rfl, rfl, rfl, rfl, rfl⟩
  | violated _ c _ h => subst h; exact ⟨rfl, rfl, rfl, rfl, rfl⟩
  | completed _ h => exact h.sameInterface

/-- When FAULT was 0 before and is 0 after, the instruction's own rule ran. -/
theorem Ran.completed_of_good {i : Instr} {s t : State} (h : Ran i s t) (hf : s.fault = false) (ht : t.fault = false) :
    s.Ready i ∧ Completes i s t := by
  cases h with
  | faulted hs _ _ => rw [hf] at hs; cases hs
  | violated _ c _ h => subst h; cases ht
  | completed hr h =>
    rcases hr with hr | ⟨-, hs, -⟩
    · exact ⟨hr, h⟩
    · rw [hf] at hs
      cases hs

/-- When a command is ready its own rule runs, unless it violates its contract itself. -/
theorem exec_of_ready {i : Instr} {s : State} (hr : s.Ready i) :
    (∃ t, exec i s = .next t ∧ Completes i s t) ∨ ∃ c, Violates i s c ∧ exec i s = .next (s.violated c) := by
  obtain ⟨t, ht⟩ := exec_answers_next hr.1 i
  cases (exec_next ht).2 with
  | faulted hs _ _ => rw [hr.2.1] at hs; cases hs
  | violated _ c hc h => exact .inr ⟨c, hc, h ▸ ht⟩
  | completed _ h => exact .inl ⟨t, ht, h⟩

/-- A ready command with a count that is not zero commits no violation. -/
theorem Violates.not_of_ready {i : Instr} {s : State} (hr : s.Ready i) (hw : ∀ n, i = .write n → n.toNat ≠ 0)
    (hd : ∀ n, i = .read n → n.toNat ≠ 0) (hu : ∀ n d, i = .readUntil n d → n.toNat ≠ 0) (c : Cause) :
    ¬ Violates i s c := by
  intro h
  cases h with
  | role h =>
    rw [hr.2.2.1] at h
    cases h
  | payload _ hp => exact hp hr.2.2.2
  | zeroWrite _ h => exact hw _ rfl h
  | zeroRead _ h => exact hd _ rfl h
  | zeroReadUntil _ h => exact hu _ _ rfl h

/-- A ready command that commits no violation answers the one state its rule allows. -/
theorem exec_eq_of_completes {i : Instr} {s t : State} (hr : s.Ready i) (hc : ∀ c, ¬ Violates i s c)
    (h : ∀ u, Completes i s u → u = t) : exec i s = .next t := by
  rcases exec_of_ready hr with ⟨u, hu, hcu⟩ | ⟨c, hv, -⟩
  · rw [hu, h u hcu]
  · exact absurd hv (hc c)

/-- An accepted WRITE. -/
theorem exec_write {s : State} {n : OperandWord} (hr : s.Ready (.write n)) (h0 : 0 < n.toNat)
    (h : n.toNat < s.cfg.size) :
    exec (.write n) s = .next ((s.writePayload n.toNat).answer (resultOfNat n.toNat) []) :=
  exec_eq_of_completes hr (Violates.not_of_ready hr (by intro m hm; cases hm; omega) (by simp) (by simp)) fun u hu => by
    cases hu
    · omega
    · rfl

/-- A ready DMA_ADVANCE. -/
theorem exec_dmaAdvance {s : State} {v : OperandWord} (hr : s.Ready (.dmaAdvance v)) :
    exec (.dmaAdvance v) s = .next ((s.reconcile (producedOf s.cfg.size v.toInt)).answer 0 []) :=
  exec_eq_of_completes hr (Violates.not_of_ready hr (by simp) (by simp) (by simp)) fun u hu => by cases hu; rfl

/-- A ready READ of at least one byte. -/
theorem exec_read {s : State} {n : OperandWord} (hr : s.Ready (.read n)) (h0 : 0 < n.toNat) :
    exec (.read n) s = .next (s.consume (s.loadRun s.read (min n.toNat s.count))) :=
  exec_eq_of_completes hr (Violates.not_of_ready hr (by simp) (by intro m hm; cases hm; omega) (by simp)) fun u hu => by
    cases hu; rfl

/-- A ready READ_UNTIL with a budget of at least one byte. -/
theorem exec_readUntil {s : State} {n : OperandWord} {d : Byte} (hr : s.Ready (.readUntil n d)) (h0 : 0 < n.toNat) :
    exec (.readUntil n d) s = .next (s.consume (emitUntil d (s.loadRun s.read (min n.toNat s.count)))) :=
  exec_eq_of_completes hr (Violates.not_of_ready hr (by simp) (by simp) (by intro m d hm; cases hm; omega))
    fun u hu => by cases hu; rfl

/-- A ready SYNC_TO_BYTE. -/
theorem exec_syncToByte {s : State} {b : Byte} (hr : s.Ready (.syncToByte b)) :
    exec (.syncToByte b) s = .next ((s.advanceRead (dropsBefore b s.unread)).answer 0 []) :=
  exec_eq_of_completes hr (Violates.not_of_ready hr (by simp) (by simp) (by simp)) fun u hu => by cases hu; rfl

end Sys2Proof.Machine
end

