-- ==== Sys2Proof/Laws/Cursors.lean ====
section
/-! SUPPORT. Where the cursors stand in a state that satisfies the invariant, and what the advance of `read`, the
producer's position and the delta of DMA_ADVANCE come to. -/

namespace Sys2Proof.Machine

section
variable {s : State}

/-- Under the invariant the count is the wrapping difference of the cursors (rule R27). -/
theorem State.Inv.count_eq (h : s.Inv) : s.count = s.cursorSub s.write s.read := State.count_eq_cursorSub h.2.2.2.2.1

/-- `write` is `read` moved by the count. -/
theorem State.Inv.write_eq (h : s.Inv) : s.cursorAdd s.read s.count = s.write := by
  rw [h.count_eq]
  exact wrapAdd_distance h.2.1 h.2.2.1

theorem State.cursorAdd_cursorAdd (s : State) (c k j : Nat) : s.cursorAdd (s.cursorAdd c k) j = s.cursorAdd c (k + j) :=
  wrapAdd_assoc j

/-- Logical index `count + i` from `read` is index `i` from `write`. -/
theorem State.Inv.cursorAdd_write (h : s.Inv) (i : Nat) : s.cursorAdd s.write i = s.cursorAdd s.read (s.count + i) := by
  rw [← State.cursorAdd_cursorAdd, h.write_eq]

theorem State.Inv.cursorAdd_zero (h : s.Inv) : s.cursorAdd s.read 0 = s.read := wrapAdd_zero h.2.2.1

/-- Moving a cursor by a distance below the modulus and back. -/
theorem State.cursorSub_cursorAdd {c k : Nat} (hc : c < s.cfg.cursorModulus) (hk : k < s.cfg.cursorModulus) :
    s.cursorSub (s.cursorAdd c k) k = c := by
  unfold State.cursorSub State.cursorAdd
  rw [wrapAdd_eq hc (by omega), wrapSub_eq (by split <;> omega) hk]
  split <;> split <;> omega

/-- The distance of the cursors after a commit (rule R133). -/
theorem State.commit_distance (hv : s.cfg.Valid) (hw : s.write < s.cfg.cursorModulus)
    (hr : s.read < s.cfg.cursorModulus) (hd : s.cursorSub s.write s.read ≤ s.cfg.mask) {m : Nat} (hm : m ≤ s.cfg.mask) :
    s.cursorSub (s.commit m).write (s.commit m).read = min (s.count + m) s.cfg.mask := by
  have h1 := State.count_eq_cursorSub hd
  have h2 := Config.two_size_le hv
  have h3 := Config.size_eq s.cfg
  rw [State.commit_write, State.commit_read]
  unfold State.free
  split
  · unfold State.cursorSub
    rw [wrapSub_wrapSub (State.cursorAdd_lt s _ _) (by omega)]
    omega
  · unfold State.cursorSub State.cursorAdd
    unfold State.cursorSub at h1 hd
    rw [wrapSub_wrapAdd_left hw hr (by omega)]
    omega

/-- The distance of the cursors after `read` moves within the unread data. -/
theorem State.Inv.advanceRead_distance (h : s.Inv) {m : Nat} (hm : m ≤ s.count) :
    s.cursorSub s.write (s.cursorAdd s.read m) = s.count - m := by
  rw [h.count_eq] at hm ⊢
  exact wrapSub_wrapAdd_right h.2.1 h.2.2.1 hm

theorem State.Inv.advanceRead_count (h : s.Inv) {m : Nat} (hm : m ≤ s.count) :
    (s.advanceRead m).count = s.count - m := by
  have hd := h.advanceRead_distance hm
  have h1 := h.count_eq
  have h2 := h.2.2.2.2.1
  have hc : (s.advanceRead m).count = (s.advanceRead m).cursorSub (s.advanceRead m).write (s.advanceRead m).read := by
    apply State.count_eq_cursorSub
    show s.cursorSub s.write (s.cursorAdd s.read m) ≤ s.cfg.mask
    omega
  rw [hc]
  exact hd

/-- After `read` moves by `m` the first `m` unread bytes are gone and the rest is unread. -/
theorem State.Inv.advanceRead_unread (h : s.Inv) {m : Nat} (hm : m ≤ s.count) :
    (s.advanceRead m).unread = s.unread.drop m := by
  unfold State.unread
  rw [h.advanceRead_count hm, State.drop_loadRun h.1]
  rfl

/-- A count fits the result word (rule R82). -/
theorem resultOfNat_toNat (hv : s.cfg.Valid) {m : Nat} (h : m ≤ s.cfg.mask) : (resultOfNat m).toNat = m := by
  have := Config.size_le hv
  have := Config.size_eq s.cfg
  unfold resultOfNat
  rw [BitVec.toNat_ofNat, Nat.mod_eq_of_lt (by omega)]

/-- READ_UNTIL copies at most the unread bytes. -/
theorem length_emitUntil_le_count (s : State) (d : Byte) (n : Nat) :
    (emitUntil d (s.loadRun s.read (min n s.count))).length ≤ s.count := by
  have := length_emitUntil_le d (s.loadRun s.read (min n s.count))
  rw [State.length_loadRun] at this
  omega

end

/-! ### The invariant, operation by operation -/

section
variable {s : State}

theorem State.Inv.violated (h : s.Inv) (c : Cause) : (s.violated c).Inv :=
  ⟨h.1, h.2.1, h.2.2.1, h.2.2.2.1, h.2.2.2.2.1, h.2.2.2.2.2.1, h.2.2.2.2.2.2.1, by simp, fun _ => Cause.code_range c⟩

theorem State.Inv.commit (h : s.Inv) {m : Nat} (hm : m ≤ s.cfg.mask) : (s.commit m).Inv := by
  have hd := State.commit_distance h.1 h.2.1 h.2.2.1 h.2.2.2.2.1 hm
  refine ⟨by simpa using h.1, ?_, ?_, by simpa using h.2.2.2.1, ?_, by simpa using h.2.2.2.2.2.1,
    by simpa using h.2.2.2.2.2.2.1, by simpa using h.2.2.2.2.2.2.2.1, by simpa using h.2.2.2.2.2.2.2.2⟩
  · rw [State.commit_write, State.commit_cfg]
    exact State.cursorAdd_lt _ _ _
  · rw [State.commit_read, State.commit_cfg]
    split
    · exact State.cursorSub_lt _ _ _
    · exact h.2.2.1
  · rw [State.cursorSub_congr (State.commit_cfg s m), State.commit_cfg]
    omega

theorem State.Inv.advanceRead (h : s.Inv) {m : Nat} (hm : m ≤ s.count) : (s.advanceRead m).Inv := by
  refine ⟨h.1, h.2.1, State.cursorAdd_lt _ _ _, h.2.2.2.1, ?_, h.2.2.2.2.2⟩
  have hd := h.advanceRead_distance hm
  have h1 := h.count_eq
  have h2 := h.2.2.2.2.1
  show s.cursorSub s.write (s.cursorAdd s.read m) ≤ s.cfg.mask
  omega

theorem State.Inv.store (h : s.Inv) {off : Nat} (ho : off < s.cfg.size) (b : Byte) : (s.store off b).Inv :=
  have k := State.store_keeps h.2.2.2.2.2.1 h.2.2.2.2.2.2.1 ho b
  ⟨h.1, h.2.1, h.2.2.1, h.2.2.2.1, h.2.2.2.2.1, k.1, k.2, h.2.2.2.2.2.2.2.1, h.2.2.2.2.2.2.2.2⟩

theorem State.Inv.storeRunFrom (h : s.Inv) (c i : Nat) (bs : List Byte) : (s.storeRunFrom c i bs).Inv := by
  have k := State.storeRunFrom_keeps c i bs h.2.2.2.2.2.1 h.2.2.2.2.2.2.1
  rw [State.storeRunFrom_eq]
  exact ⟨h.1, h.2.1, h.2.2.1, h.2.2.2.1, h.2.2.2.2.1, k.1, k.2, h.2.2.2.2.2.2.2.1, h.2.2.2.2.2.2.2.2⟩

end

/-- A command that is no INIT, WRITE or DMA_ADVANCE moves `read` within the unread data and no other register, and stores
nothing (rules R57, R161, R190). -/
theorem Completes.within_unread {i : Instr} {s t : State} (h : Completes i s t) (hi : s.Inv)
    (kind : i.opcode ≠ .init ∧ i.opcode ≠ .write ∧ i.opcode ≠ .dmaAdvance) :
    t.write = s.write ∧ t.dmaCnt = s.dmaCnt ∧ t.fullCnt = s.fullCnt ∧ t.storage = s.storage ∧
      ∃ m, m ≤ s.count ∧ t.read = s.cursorAdd s.read m ∧ t.count = s.count - m := by
  cases h with
  | init => exact absurd rfl kind.1
  | writeRejected => exact absurd rfl kind.2.1
  | write => exact absurd rfl kind.2.1
  | dmaAdvance => exact absurd rfl kind.2.2
  | read _ n h0 => exact ⟨rfl, rfl, rfl, rfl, _, by simp, rfl, hi.advanceRead_count (by simp)⟩
  | readUntil _ n d h0 =>
    have hm := length_emitUntil_le_count s d n.toNat
    exact ⟨rfl, rfl, rfl, rfl, _, hm, rfl, hi.advanceRead_count hm⟩
  | syncToByte _ b =>
    have hm := dropsBefore_le b s.unread
    rw [State.length_unread] at hm
    exact ⟨rfl, rfl, rfl, rfl, _, hm, rfl, hi.advanceRead_count hm⟩
  | _ => exact ⟨rfl, rfl, rfl, rfl, 0, Nat.zero_le _, hi.cursorAdd_zero.symm, rfl⟩

/-! ### The countdown of the DMA peripheral -/

/-- The produced position of a sample is where the peripheral stores next (rules R61, R171). -/
theorem producedOf_of_reads {size J : Nat} (hs : 0 < size) {v : Int} (h : CountdownReads size J v) :
    producedOf size v = J % size := by
  unfold CountdownReads at h
  have hlt := Nat.mod_lt J hs
  unfold producedOf
  split at h
  · rename_i hz
    rw [hz]
    rcases h with rfl | rfl
    · have : clampSample size size = size := by
        unfold clampSample
        rw [if_neg (by omega), if_neg (by omega)]
        omega
      rw [this]
      simp
    · have : clampSample size 0 = 0 := by
        unfold clampSample
        rw [if_neg (by omega), if_neg (by omega)]
        rfl
      rw [this]
      simp
  · have : clampSample size v = size - J % size := by
      subst h
      unfold clampSample
      rw [if_neg (by omega), if_neg (by omega)]
      omega
    rw [this, show size - (size - J % size) = J % size by omega, Nat.mod_mod]

/-- The delta between two positions of the peripheral is the bytes between them modulo SIZE (rules R172, R175). -/
theorem wrapSub_positions (size J T : Nat) : wrapSub size ((J + T) % size) (J % size) = T % size := by
  unfold wrapSub
  rw [Int.natCast_mod, Int.natCast_mod, ← Int.sub_emod]
  have : ((J + T : Nat) : Int) - (J : Int) = (T : Int) := by omega
  rw [this, ← Int.natCast_mod, Int.toNat_natCast]

end Sys2Proof.Machine
end

