-- ==== Sys2Proof/Laws/Decode.lean ====
section
/-! SUPPORT. The fields of a packed command word, bit by bit, and the byte order of the transport. -/

namespace Sys2Proof

/-- Every bit of a packed word (rule R73). -/
theorem getLsbD_packFields (n : OperandWord) (b : Byte) (opc : BitVec 4) (i : Nat) :
    (packFields n b opc).getLsbD i =
      if i < 4 then opc.getLsbD i else if i < 8 then false else if i < 16 then b.getLsbD (i - 8)
      else if i < 32 then false else n.getLsbD (i - 32) := by
  unfold packFields
  simp only [BitVec.getLsbD_append, BitVec.getLsbD_zero]
  by_cases h1 : i < 4
  · simp [h1]
  · by_cases h2 : i < 8
    · simp [h1, h2, show i - 4 < 4 by omega]
    · by_cases h3 : i < 16
      · simp [h1, h2, h3, show ¬ i - 4 < 4 by omega, show i - 4 - 4 = i - 8 by omega,
          show i - 8 < 8 by omega]
      · by_cases h4 : i < 32
        · simp [h1, h2, h3, h4, show ¬ i - 4 < 4 by omega, show ¬ i - 4 - 4 < 8 by omega,
            show i - 4 - 4 - 8 < 16 by omega]
        · simp [h1, h2, h3, h4, show ¬ i - 4 < 4 by omega, show ¬ i - 4 - 4 < 8 by omega,
            show ¬ i - 4 - 4 - 8 < 16 by omega, show i - 4 - 4 - 8 - 16 = i - 32 by omega]

@[simp] theorem fieldOpc_packFields (n : OperandWord) (b : Byte) (opc : BitVec 4) : fieldOpc (packFields n b opc) = opc := by
  unfold fieldOpc
  ext i hi
  simp [BitVec.getLsbD_eq_getElem, getLsbD_packFields, hi]

@[simp] theorem fieldB_packFields (n : OperandWord) (b : Byte) (opc : BitVec 4) : fieldB (packFields n b opc) = b := by
  unfold fieldB
  ext i hi
  simp [getLsbD_packFields, hi, show ¬ 8 + i < 4 by omega, show 8 + i < 16 by omega]

@[simp] theorem fieldN_packFields (n : OperandWord) (b : Byte) (opc : BitVec 4) : fieldN (packFields n b opc) = n := by
  unfold fieldN
  ext i hi
  simp [getLsbD_packFields, hi, show ¬ 32 + i < 4 by omega, show ¬ 32 + i < 8 by omega, show ¬ 32 + i < 16 by omega]

/-- Masking a packed word masks its fields one by one. -/
theorem packFields_and (n : OperandWord) (b : Byte) (opc : BitVec 4) (m : CommandWord) (mN : BitVec 32) (m1 : BitVec 16)
    (mB : BitVec 8) (m0 mO : BitVec 4) (hm : m = mN ++ m1 ++ mB ++ m0 ++ mO) :
    packFields n b opc &&& m = (n &&& mN) ++ (0#16 &&& m1) ++ (b &&& mB) ++ (0#4 &&& m0) ++ (opc &&& mO) := by
  subst hm
  unfold packFields
  rw [BitVec.and_append, BitVec.and_append, BitVec.and_append, BitVec.and_append]

/-- Every opcode is found from its OPC value. -/
@[simp] theorem Opcode.ofCode_code (op : Opcode) : Opcode.ofCode op.code = some op := by cases op <;> rfl

/-- An opcode is found from its OPC value only. -/
theorem Opcode.code_of_ofCode {c : BitVec 4} {op : Opcode} (h : Opcode.ofCode c = some op) : op.code = c := by
  revert h
  revert c op
  decide

/-- The `k` bytes of a number carry it modulo 256^k (rule R75). -/
theorem natOfBytes_bytesOfNat (k n : Nat) : natOfBytes (bytesOfNat k n) = n % 256 ^ k := by
  induction k generalizing n with
  | zero => simp [bytesOfNat, natOfBytes, Nat.mod_one]
  | succ k ih =>
    have h : 256 ^ (k + 1) = 256 * 256 ^ k := by ring
    rw [h, Nat.mod_mul]
    simp [bytesOfNat, natOfBytes, ih]

@[simp] theorem length_bytesOfNat (k n : Nat) : (bytesOfNat k n).length = k := by
  induction k generalizing n with
  | zero => rfl
  | succ k ih => simp [bytesOfNat, ih]

end Sys2Proof
end

