-- ==== Sys2Proof/Laws/PerInstr.lean ====
section
/-! SUPPORT. Facts about every instruction as syntax, one lemma per constructor. `MatchMask`: the encoding of an
instruction equals its opcode's match value under the opcode's mask (second table of rule R78). -/

namespace Sys2Proof.Laws.MatchMask

/-- The word of an instruction is the named command: `word & mask = match` (rule R78). -/
def Statement (i : Instr) : Prop := encode i &&& i.opcode.maskWord = i.opcode.matchWord

theorem init : Statement .init := by unfold Statement; decide

theorem write (n : OperandWord) : Statement (.write n) := by
  refine (packFields_and n 0 _ _ 0#32 0xFFFF#16 0xFF#8 0xF#4 0xF#4 rfl).trans ?_
  rw [BitVec.and_zero]
  rfl

theorem dmaAdvance (v : OperandWord) : Statement (.dmaAdvance v) := by
  refine (packFields_and v 0 _ _ 0#32 0xFFFF#16 0xFF#8 0xF#4 0xF#4 rfl).trans ?_
  rw [BitVec.and_zero]
  rfl

theorem read (n : OperandWord) : Statement (.read n) := by
  refine (packFields_and n 0 _ _ 0#32 0xFFFF#16 0xFF#8 0xF#4 0xF#4 rfl).trans ?_
  rw [BitVec.and_zero]
  rfl

theorem readUntil (max : OperandWord) (delim : Byte) : Statement (.readUntil max delim) := by
  refine (packFields_and max delim _ _ 0#32 0xFFFF#16 0#8 0xF#4 0xF#4 rfl).trans ?_
  rw [BitVec.and_zero, BitVec.and_zero]
  rfl

theorem syncToByte (marker : Byte) : Statement (.syncToByte marker) := by
  refine (packFields_and 0 marker _ _ 0xFFFFFFFF#32 0xFFFF#16 0#8 0xF#4 0xF#4 rfl).trans ?_
  rw [BitVec.and_zero]
  rfl

theorem isEmpty : Statement .isEmpty := by unfold Statement; decide
theorem isFull : Statement .isFull := by unfold Statement; decide
theorem dataCount : Statement .dataCount := by unfold Statement; decide
theorem emptyCount : Statement .emptyCount := by unfold Statement; decide
theorem contigDataCount : Statement .contigDataCount := by unfold Statement; decide
theorem contigEmptyCount : Statement .contigEmptyCount := by unfold Statement; decide
theorem fullCount : Statement .fullCount := by unfold Statement; decide
theorem status : Statement .status := by unfold Statement; decide

end Sys2Proof.Laws.MatchMask
end

