-- ==== Sys2Proof/Laws/Step.lean ====
section
/-! SUPPORT. What a step can do, said once: one case per event of the total order (rule R58). -/

namespace Sys2Proof.Machine

theorem rejectWord_faulted {s : State} (h : s.cfg.Valid) (hf : s.fault = true) (r : Reject) :
    rejectWord r s = .next s.answerErr := by
  unfold rejectWord
  rw [if_neg (not_not.2 h), if_pos hf]

theorem rejectWord_opcode {s : State} (h : s.cfg.Valid) (hf : s.fault = false) :
    rejectWord .reservedOpcode s = .next (s.violated .reservedOpcode) := by
  unfold rejectWord
  rw [if_neg (not_not.2 h), if_neg (by simp [hf])]
  rfl

theorem rejectWord_role {s : State} (h : s.cfg.Valid) (hf : s.fault = false) {op : Opcode}
    (hl : op.legalOn s.arrival.port = false) :
    rejectWord (.reservedField op) s = .next (s.violated .roleViolation) := by
  unfold rejectWord
  rw [if_neg (not_not.2 h), if_neg (by simp [hf])]
  simp only [hl, if_true, raiseFault_eq]

theorem rejectWord_field {s : State} (h : s.cfg.Valid) (hf : s.fault = false) {op : Opcode}
    (hl : op.legalOn s.arrival.port = true) :
    rejectWord (.reservedField op) s = .next (s.violated .reservedField) := by
  unfold rejectWord
  rw [if_neg (not_not.2 h), if_neg (by simp [hf])]
  simp [hl, raiseFault_eq]

theorem rejectWord_cases (r : Reject) {s : State} (h : s.cfg.Valid) :
    ∃ s', rejectWord r s = .next s' ∧
      (s.fault = true ∧ s' = s.answerErr ∨ s.fault = false ∧ ∃ c, s' = s.violated c) := by
  cases hf : s.fault with
  | true => exact ⟨_, rejectWord_faulted h hf r, .inl ⟨rfl, rfl⟩⟩
  | false =>
    cases r with
    | reservedOpcode => exact ⟨_, rejectWord_opcode h hf, .inr ⟨rfl, _, rfl⟩⟩
    | reservedField op =>
      cases hl : op.legalOn s.arrival.port with
      | false => exact ⟨_, rejectWord_role h hf hl, .inr ⟨rfl, _, rfl⟩⟩
      | true => exact ⟨_, rejectWord_field h hf hl, .inr ⟨rfl, _, rfl⟩⟩

/-- What taking a command word can do: the word decodes and its instruction runs, or the word is rejected. -/
inductive WordRan (w : CommandWord) (s s' : State) : Prop where
  | ran (i : Instr) (hd : decodeWord w = .ok i) (h : Ran i s s')
  | faulted (r : Reject) (hd : decodeWord w = .error r) (hf : s.fault = true) (h : s' = s.answerErr)
  | violated (r : Reject) (hd : decodeWord w = .error r) (hf : s.fault = false) (c : Cause) (h : s' = s.violated c)

theorem runWord_answers_next {s : State} (h : s.cfg.Valid) (w : CommandWord) :
    ∃ s', runWord w s = .next s' ∧ WordRan w s s' := by
  unfold runWord
  cases hd : decodeWord w with
  | ok i =>
    obtain ⟨s', hs⟩ := exec_answers_next h i
    exact ⟨s', hs, .ran i hd (exec_next hs).2⟩
  | error r =>
    obtain ⟨s', hs, ⟨hf, he⟩ | ⟨hf, c, he⟩⟩ := rejectWord_cases r h
    · exact ⟨s', hs, .faulted r hd hf he⟩
    · exact ⟨s', hs, .violated r hd hf c he⟩

/-- The state in which a command taken from port `p` is run. -/
abbrev State.taken (s : State) (p : Port) (c : Command) (rest : List Command) : State :=
  (s.setQueue p rest).take p c.payload

/-- The ways a step can go, one per event. -/
inductive Stepped (s s' : State) : Prop where
  | idle (hs : s.schedule = []) (h : s' = s)
  | issue (p : Port) (c : Command) (rest : List Event) (hs : s.schedule = .issue p c :: rest)
    (h : s' = { s with schedule := rest }.setQueue p (s.queue p ++ [c]))
  | nothingWaiting (p : Port) (rest : List Event) (hs : s.schedule = .serve p :: rest) (hq : s.queue p = [])
    (h : s' = { s with schedule := rest })
  | served (p : Port) (rest : List Event) (c : Command) (q : List Command) (hs : s.schedule = .serve p :: rest)
    (hq : s.queue p = c :: q) (h : WordRan c.word ({ s with schedule := rest }.taken p c q) s')
  | dmaStore (off : Nat) (b : Byte) (rest : List Event) (hs : s.schedule = .dmaStore off b :: rest)
    (ho : off < s.cfg.size) (h : s' = { s with schedule := rest }.store off b)
  | reset (rest : List Event) (hs : s.schedule = .reset :: rest) (h : s' = { s with schedule := rest }.hardReset)

theorem queue_schedule (s : State) (es : List Event) (p : Port) :
    ({ s with schedule := es } : State).queue p = s.queue p := by cases p <;> rfl

/-- Executing a port on which a command waits. -/
theorem step_serve {s : State} (hv : s.cfg.Valid) {p : Port} {c : Command} {q : List Command} {es : List Event}
    (hs : s.schedule = .serve p :: es) (hq : s.queue p = c :: q) :
    step s = runWord c.word ({ s with schedule := es }.taken p c q) := by
  simp only [step, runSchedule, hs]
  rw [if_neg (not_not.2 hv)]
  simp only [runEvent, serveEvent, queue_schedule, hq]

/-- Everything a step that answers a next state can do. -/
theorem step_next {s s' : State} (h : step s = .next s') : s.cfg.Valid ∧ Stepped s s' := by
  unfold step runSchedule at h
  split at h
  · cases h
  · have hv : s.cfg.Valid := by rwa [not_not] at *
    refine ⟨hv, ?_⟩
    split at h
    · cases h
      exact .idle ‹_› rfl
    · rename_i e rest hs
      cases e with
      | issue p c =>
        simp only [runEvent, issueEvent, queue_schedule, Host.Outcome.next.injEq] at h
        exact .issue p c rest hs h.symm
      | serve p =>
        simp only [runEvent, serveEvent, queue_schedule] at h
        split at h
        · cases h
          exact .nothingWaiting p rest hs ‹_› rfl
        · rename_i c q hq
          obtain ⟨t, ht, hr⟩ := runWord_answers_next
            (s := { s with schedule := rest }.taken p c q) (by simpa using hv) c.word
          rw [ht] at h
          cases h
          exact .served p rest c q hs hq hr
      | dmaStore off b =>
        simp only [runEvent, dmaStoreEvent] at h
        split at h
        · cases h
          exact .dmaStore off b rest hs ‹_› rfl
        · cases h
      | reset =>
        cases h
        exact .reset rest hs rfl

/-- A valid machine steps to a next state unless the DMA peripheral is scheduled to store outside the array. -/
theorem step_answers_next {s : State} (hv : s.cfg.Valid)
    (hd : ∀ off b rest, s.schedule = .dmaStore off b :: rest → off < s.cfg.size) : ∃ s', step s = .next s' := by
  unfold step runSchedule
  rw [if_neg (not_not.2 hv)]
  split
  · exact ⟨_, rfl⟩
  · rename_i e rest hs
    cases e with
    | issue p c => exact ⟨_, rfl⟩
    | serve p =>
      simp only [runEvent, serveEvent, queue_schedule]
      split
      · exact ⟨_, rfl⟩
      · rename_i c q hq
        obtain ⟨t, ht, -⟩ := runWord_answers_next
          (s := { s with schedule := rest }.taken p c q) (by simpa using hv) c.word
        exact ⟨t, ht⟩
    | dmaStore off b =>
      simp only [runEvent, dmaStoreEvent]
      rw [if_pos (hd off b rest hs)]
      exact ⟨_, rfl⟩
    | reset => exact ⟨_, rfl⟩

end Sys2Proof.Machine
end

