-- ==== Sys2Proof/Tests/Slice0.lean ====
section
/-! SUPPORT. The model's own tests: ill-formed requests are refused, words written out from rules R73, R78 and R85 decode
to what they stand for, one step per test against the vectors of 95_test_vectors.md (V, W-, R-, U-, D-, S-, I-, Q-, F-),
and for every obligation a concrete state that meets its hypotheses. -/

namespace Sys2Proof.Tests

open Sys2Proof.Machine

/-! ### Helpers -/

/-- SIZE = 2^k, W = 32, cursors `(w, r)`, the bytes from offset 0 on. -/
def st (k w r : Nat) (bs : List Byte) : State :=
  ({ State.reset with cfg := { Config.reference with sizeLog2 := k }, write := w, read := r } : State).storeRunFrom 0 0 bs

/-- The next state of an outcome. -/
def next? : Result → Option State
  | .next s => some s
  | .fault _ => none
  | .refused _ => none

/-- One answer. -/
def ans (p : Port) (err : Bool) (r : ResultWord) (d : List Byte) : List Answer :=
  [{ port := p, err := err, result := r, data := d }]

/-- Run an instruction that arrives on a port with a payload; its cursors, answers, CAUSE and FAULT. -/
def after (i : Instr) (p : Port) (payload : List Byte) (s : State) :
    Option (Nat × Nat × List Answer × BitVec 4 × Bool) :=
  (next? (exec i (s.take p payload))).map fun t => (t.write, t.read, t.answers, t.cause, t.fault)

/-- One step of a state on whose port a word with its payload waits. -/
def served (w : CommandWord) (p : Port) (payload : List Byte) (s : State) : State :=
  { s.setQueue p [{ word := w, payload := payload }] with schedule := [.serve p] }

/-- The cause and the answers after that step. -/
def ran (w : CommandWord) (p : Port) (payload : List Byte) (s : State) : Option (BitVec 4 × List Answer) :=
  (next? (step (served w p payload s))).map fun t => (t.cause, t.answers)

/-! ### Ill-formed terms (WellFormed) -/

theorem test_wellFormed_write : (Request.wellFormed { port := .producer, instr := .write 2, payload := [1, 2] }) = true := by
  decide
theorem test_illFormed_role : (Request.wellFormed { port := .consumer, instr := .write 2, payload := [1, 2] }) = false := by
  decide
theorem test_illFormed_payload : (Request.wellFormed { port := .producer, instr := .write 2, payload := [1] }) = false := by
  decide
theorem test_illFormed_payload_query :
    (Request.wellFormed { port := .consumer, instr := .status, payload := [1] }) = false := by decide
theorem test_illFormed_zero_write : (Request.wellFormed { port := .producer, instr := .write 0, payload := [] }) = false := by
  decide
theorem test_illFormed_zero_read : (Request.wellFormed { port := .consumer, instr := .read 0, payload := [] }) = false := by
  decide
theorem test_illFormed_zero_readUntil :
    (Request.wellFormed { port := .consumer, instr := .readUntil 0 10, payload := [] }) = false := by decide
theorem test_invalid_size : ¬ ({ Config.reference with sizeLog2 := 0 } : Config).Valid := by decide
theorem test_invalid_size_large : ¬ ({ Config.reference with sizeLog2 := 32, cursorWidth := 64 } : Config).Valid := by
  decide
theorem test_invalid_width : ¬ ({ Config.reference with cursorWidth := 3 } : Config).Valid := by decide

/-! ### Decoding: words written out field by field, N/V, RSV1, B, RSV0, OPC (rule R73) -/

theorem test_decode_init : decodeWord 0b00000000000000000000000000000000_0000000000000000_00000000_0000_0000#64 = .ok .init := by
  rfl
theorem test_decode_write :
    decodeWord 0b00000000000000000000000000000101_0000000000000000_00000000_0000_0001#64 = .ok (.write 5) := by rfl
theorem test_decode_dmaAdvance :
    decodeWord 0b11111111111111111111111111111111_0000000000000000_00000000_0000_0010#64 =
      .ok (.dmaAdvance 0xFFFFFFFF) := by rfl
theorem test_decode_read :
    decodeWord 0b00000000000000000000000000001000_0000000000000000_00000000_0000_0011#64 = .ok (.read 8) := by rfl
theorem test_decode_readUntil :
    decodeWord 0b00000000000000000000000000010000_0000000000000000_00001010_0000_0100#64 = .ok (.readUntil 16 0x0A) := by
  rfl
theorem test_decode_syncToByte :
    decodeWord 0b00000000000000000000000000000000_0000000000000000_10101010_0000_0101#64 = .ok (.syncToByte 0xAA) := by
  rfl
theorem test_decode_isEmpty :
    decodeWord 0b00000000000000000000000000000000_0000000000000000_00000000_0000_1000#64 = .ok .isEmpty := by rfl
theorem test_decode_isFull :
    decodeWord 0b00000000000000000000000000000000_0000000000000000_00000000_0000_1001#64 = .ok .isFull := by rfl
theorem test_decode_dataCount :
    decodeWord 0b00000000000000000000000000000000_0000000000000000_00000000_0000_1010#64 = .ok .dataCount := by rfl
theorem test_decode_emptyCount :
    decodeWord 0b00000000000000000000000000000000_0000000000000000_00000000_0000_1011#64 = .ok .emptyCount := by rfl
theorem test_decode_contigDataCount :
    decodeWord 0b00000000000000000000000000000000_0000000000000000_00000000_0000_1100#64 = .ok .contigDataCount := by rfl
theorem test_decode_contigEmptyCount :
    decodeWord 0b00000000000000000000000000000000_0000000000000000_00000000_0000_1101#64 = .ok .contigEmptyCount := by rfl
theorem test_decode_fullCount :
    decodeWord 0b00000000000000000000000000000000_0000000000000000_00000000_0000_1110#64 = .ok .fullCount := by rfl
theorem test_decode_status :
    decodeWord 0b00000000000000000000000000000000_0000000000000000_00000000_0000_1111#64 = .ok .status := by rfl
theorem test_decode_reserved_opcode : decodeWord 0x0000000000000006#64 = .error .reservedOpcode := by rfl
theorem test_decode_reserved_opcode' : decodeWord 0x0000000500000007#64 = .error .reservedOpcode := by rfl
theorem test_decode_reserved_field : decodeWord 0x0000000300000101#64 = .error (.reservedField .write) := by rfl
theorem test_decode_reserved_rsv1 : decodeWord 0x0000000100010A04#64 = .error (.reservedField .readUntil) := by rfl
theorem test_decode_bytes :
    decodeBytes [0x01, 0, 0, 0, 0x02, 0, 0, 0, 7, 8] = .ok (.write 2, [7, 8]) := by rfl
theorem test_decode_truncated : decodeBytes [0x01, 0, 0, 0, 0x02, 0, 0] = .error .truncated := by rfl
theorem test_table_word : decodeTableWord 64 0x0000001000000A04 = some (.readUntil 16 0x0A) := by rfl
theorem test_encode : encode (.readUntil 16 0x0A) = 0x0000001000000A04#64 := by decide

/-! ### The assembler (rule R85) -/

theorem test_assemble_comment : assembleLine "C: IS_FULL ; poll" = some (.consumer, { word := 0x9#64, payload := [] }) := by
  decide
theorem test_assemble_prefix_required : assembleLine "IS_FULL" = none := by decide

/-! ### One step each, against 95_test_vectors.md -/

/-- V1 step 1. -/
theorem test_write : after (.write 5) .producer [1, 2, 3, 4, 5] (st 3 0 0 []) =
    some (5, 0, ans .producer false 5 [], 0, false) := by decide
/-- V1 step 3: an overwrite whose stores wrap. -/
theorem test_write_overwrite :
    (next? (exec (.write 4) ((st 3 5 0 [1, 2, 3, 4, 5]).take .producer [6, 7, 8, 9]))).map
      (fun t => (t.write, t.read, t.fullCnt, (List.range 8).map t.load)) = some (9, 2, 1, [9, 2, 3, 4, 5, 6, 7, 8]) := by
  decide
/-- R-1: the read of V1 step 5. -/
theorem test_read : after (.read 8) .consumer [] (st 3 9 2 [9, 2, 3, 4, 5, 6, 7, 8]) =
    some (9, 9, ans .consumer false 7 [3, 4, 5, 6, 7, 8, 9], 0, false) := by decide
/-- R-8: `read` wraps at 2^32. -/
theorem test_read_wrap : after (.read 5) .consumer [] (st 3 0x2 0xFFFFFFFD [4, 5, 0, 0, 0, 1, 2, 3]) =
    some (2, 2, ans .consumer false 5 [1, 2, 3, 4, 5], 0, false) := by decide
/-- U-1. -/
theorem test_readUntil : after (.readUntil 16 0x0A) .consumer [] (st 3 4 0 [0x41, 0x0A, 0x42, 0x0A]) =
    some (4, 2, ans .consumer false 2 [0x41, 0x0A], 0, false) := by decide
/-- U-4: the delimiter lies past the budget. -/
theorem test_readUntil_budget : after (.readUntil 2 0x0A) .consumer [] (st 3 3 0 [1, 2, 0x0A]) =
    some (3, 2, ans .consumer false 2 [1, 2], 0, false) := by decide
/-- S-5: the scan wraps at the end of the array. -/
theorem test_syncToByte : after (.syncToByte 0xAA) .consumer [] (st 3 17 14 [0xAA, 0, 0, 0, 0, 0, 1, 2]) =
    some (17, 16, ans .consumer false 0 [], 0, false) := by decide
/-- S-4: no marker. -/
theorem test_syncToByte_none : after (.syncToByte 0xAA) .consumer [] (st 3 3 0 [1, 2, 3]) =
    some (3, 3, ans .consumer false 0 [], 0, false) := by decide
/-- D-7: a forward distance across the wrap of the countdown. -/
theorem test_dmaAdvance : after (.dmaAdvance 29) .producer [] { st 5 27 27 [] with dmaCnt := 27 } =
    some (35, 27, ans .producer false 0 [], 0, false) := by decide
/-- D-9: an overwrite. -/
theorem test_dmaAdvance_overwrite : (next? (exec (.dmaAdvance 32) { st 5 31 0 [] with dmaCnt := 31 })).map
    (fun t => (t.write, t.read, t.dmaCnt, t.fullCnt)) = some (32, 1, 0, 1) := by decide
/-- I-1. -/
theorem test_init : (next? (exec .init { st 3 13 10 [] with dmaCnt := 5, fullCnt := 2 })).map
    (fun t => (t.write, t.read, t.dmaCnt, t.fullCnt)) = some (0, 0, 0, 0) := by decide
theorem test_isEmpty : after .isEmpty .consumer [] (st 3 9 9 []) = some (9, 9, ans .consumer false 1 [], 0, false) := by
  decide
theorem test_isFull : after .isFull .consumer [] (st 3 9 2 []) = some (9, 2, ans .consumer false 1 [], 0, false) := by
  decide
/-- The literal formula of the source would give 1 here (90_conflicts.md C1). -/
theorem test_isFull_not_literal : after .isFull .producer [] (st 3 1 0 []) =
    some (1, 0, ans .producer false 0 [], 0, false) := by decide
theorem test_dataCount : after .dataCount .producer [] (st 3 0x2 0xFFFFFFFD []) =
    some (0x2, 0xFFFFFFFD, ans .producer false 5 [], 0, false) := by decide
theorem test_emptyCount : after .emptyCount .producer [] (st 3 13 10 []) =
    some (13, 10, ans .producer false 4 [], 0, false) := by decide
theorem test_contigDataCount : after .contigDataCount .consumer [] (st 3 17 14 []) =
    some (17, 14, ans .consumer false 2 [], 0, false) := by decide
theorem test_contigEmptyCount : after .contigEmptyCount .producer [] (st 3 13 10 []) =
    some (13, 10, ans .producer false 3 [], 0, false) := by decide
theorem test_contigEmptyCount_full : after .contigEmptyCount .producer [] (st 3 7 0 []) =
    some (7, 0, ans .producer false 0 [], 0, false) := by decide
theorem test_fullCount : after .fullCount .producer [] { st 3 9 2 [] with fullCnt := 0xFFFFFFFF } =
    some (9, 2, ans .producer false 0xFFFFFFFF [], 0, false) := by decide
/-- Q-15, SIZE = 2^31. -/
theorem test_status : after .status .producer [] (st 31 0 0 []) =
    some (0, 0, ans .producer false 0x00001F00 [], 0, false) := by decide
/-- Q-16. -/
theorem test_status_faulted : after .status .consumer [] { st 3 5 0 [] with fault := true, cause := 6 } =
    some (5, 0, ans .consumer false 0x00000361 [], 6, true) := by decide

/-! ### Faults and decode order -/

theorem test_F1 : ran 0x0000000000000006#64 .producer [] (st 3 0 0 []) = some (4, ans .producer true 0 []) := by decide
theorem test_F2 : ran 0x0000000000000007#64 .consumer [1] (st 3 0 0 []) = some (4, ans .consumer true 0 []) := by decide
theorem test_F3 : ran 0x0000000300000101#64 .consumer [1, 2, 3] (st 3 0 0 []) = some (6, ans .consumer true 0 []) := by
  decide
theorem test_F4 : ran 0x000000000000000F#64 .producer [1] (st 3 0 0 []) = some (7, ans .producer true 0 []) := by decide
theorem test_F5 : ran 0x000000010000000F#64 .producer [] (st 3 0 0 []) = some (5, ans .producer true 0 []) := by decide
theorem test_F7 : ran 0x0000000000000003#64 .consumer [] { st 3 5 0 [] with fault := true, cause := 6 } =
    some (6, ans .consumer true 0 []) := by decide
theorem test_W15 : ran 0x0000000000000001#64 .producer [1] (st 3 0 0 []) = some (7, ans .producer true 0 []) := by decide
theorem test_R11 : ran 0x0000000000000013#64 .consumer [] (st 3 5 0 []) = some (5, ans .consumer true 0 []) := by decide
/-- F-11: reset keeps storage. -/
theorem test_F11 :
    (next? (step { st 3 5 0 [1, 2, 3, 4, 5] with schedule := [.reset], dmaCnt := 3, fullCnt := 2 })).map
      (fun t => (t.write, t.dmaCnt, t.fullCnt, t.load 4)) = some (0, 0, 0, 5) := by decide
/-- A word placed by `withFetchWord` runs as the very next step. -/
theorem test_withFetchWord : (next? (step (State.reset.withFetchWord 64 0x0000000300000001))).map
    (fun t => (t.write, t.answers)) = some (3, ans .producer false 3 []) := by decide
/-- A storage write of 0x00 removes the entry, so that equal memories are equal data. -/
theorem test_memory_canonical : Memory.write [(1, 5), (3, 7)] 1 0 = [(3, 7)] := by decide

/-! ### Witnesses: concrete states and operands that meet the hypotheses of each obligation -/

theorem witness_EncodeDecodeRoundTrip : decodeWord 0xFFFFFFFF0000FF04#64 = .ok (.readUntil 0xFFFFFFFF 0xFF) := by rfl

/-- A framed WRITE, and a framed word that is no command. -/
theorem witness_TransportRoundTrip :
    ([7, 8] : List Byte).length = framedPayloadLength 0x0000000200000001#64 ∧
    ([] : List Byte).length = framedPayloadLength 0x0000000200000006#64 := by decide

/-- The byte order written out from rule R75: WRITE 2 with its payload, and a READ response of three bytes. -/
theorem test_transport :
    frameCommand { word := 0x0000000200000001#64, payload := [7, 8] } = [0x01, 0, 0, 0, 0x02, 0, 0, 0, 7, 8] ∧
    frameAnswer { port := .consumer, err := false, result := 0x00000003, data := [9, 8, 7] } =
      [0x03, 0, 0, 0, 9, 8, 7] := by decide

theorem witness_StepRunsDecodedInstruction :
    let s := served 0x0000000200000001#64 .producer [7, 8] (st 3 0 0 [])
    s.cfg.Valid ∧ s.schedule = [.serve .producer] ∧
      s.queue .producer = [{ word := 0x0000000200000001#64, payload := [7, 8] }] ∧
      decodeWord 0x0000000200000001#64 = .ok (.write 2) := ⟨by decide, by decide, by decide, by rfl⟩

/-- One word per line of the decode procedure, on a state whose FAULT is 0 (and 1 for the first two). -/
theorem witness_DecodeProcedure :
    let f : State := { st 3 5 0 [] with fault := true, cause := 6 }
    ran 0x000000000000000F#64 .producer [] f = some (6, ans .producer false 0x361 []) ∧
    ran 0x000000010000000F#64 .producer [] f = some (6, ans .producer true 0 []) ∧
    ran 0x0000000000000007#64 .producer [] (st 3 5 0 []) = some (4, ans .producer true 0 []) ∧
    ran 0x0000000100000013#64 .producer [] (st 3 5 0 []) = some (6, ans .producer true 0 []) ∧
    ran 0x0000000100000013#64 .consumer [9] (st 3 5 0 []) = some (5, ans .consumer true 0 []) ∧
    ran 0x0000000100000001#64 .producer [] (st 3 5 0 []) = some (7, ans .producer true 0 []) ∧
    ran 0x0000000000000003#64 .consumer [9] (st 3 5 0 []) = some (7, ans .consumer true 0 []) ∧
    ran 0x0000000000000003#64 .consumer [] (st 3 5 0 []) = some (2, ans .consumer true 0 []) := by decide

theorem witness_PortsKeepIssueOrder :
    let c : Command := { word := 0x8#64, payload := [] }
    let s : State := { st 3 5 0 [] with queueC := [c], schedule := [.issue .producer c] }
    let u : State := { s with schedule := [.serve .consumer] }
    (s.cfg.Valid ∧ s.schedule = [.issue .producer c]) ∧
    (u.schedule = [.serve .consumer] ∧ u.queue .consumer = [c] ∧ ∃ t, step u = .next t) :=
  ⟨by decide, by decide, by decide, _, rfl⟩

/-- An empty schedule, and the execution of a port on which nothing waits while the other port has a command. -/
theorem witness_IdleStepsChangeNothing :
    let s := st 3 5 0 [1]
    let u : State := { s with queueP := [{ word := 0x8#64, payload := [] }], schedule := [.serve .consumer, .reset] }
    (s.cfg.Valid ∧ s.schedule = []) ∧
    (u.cfg.Valid ∧ u.schedule = [.serve .consumer, .reset] ∧ u.queue .consumer = []) := by decide

theorem witness_EveryCommandAnsweredInOneStep :
    ran 0x8#64 .consumer [] (st 3 5 0 []) = some (0, ans .consumer false 0 []) ∧
    ran 0x8#64 .consumer [1] (st 3 5 0 []) = some (7, ans .consumer true 0 []) := by decide

/-- Each clause: a count, IS_EMPTY, IS_FULL, READ. -/
theorem witness_ResultWords :
    (st 3 9 2 []).Inv ∧ (∃ t, exec .dataCount (st 3 9 2 []) = .next t) ∧ (∃ t, exec .isEmpty (st 3 9 2 []) = .next t) ∧
    (∃ t, exec .isFull (st 3 9 2 []) = .next t) ∧ ∃ t, exec (.read 7) ((st 3 9 2 []).take .consumer []) = .next t :=
  ⟨by decide, exec_answers_next (by decide) _, exec_answers_next (by decide) _, exec_answers_next (by decide) _,
    exec_answers_next (by decide) _⟩

theorem witness_InvalidConfigurationRefused :
    let s : State := { st 3 0 0 [] with cfg := { Config.reference with cursorWidth := 3 } }
    (st 0 0 0 []).cfg.sizeLog2 < 1 ∧ 31 < (st 32 0 0 []).cfg.sizeLog2 ∧ s.cfg.cursorWidth < s.cfg.sizeLog2 + 1 := by
  decide

theorem witness_ConfigurationNeverChanges :
    (∃ t, step { st 3 5 0 [] with schedule := [.reset] } = .next t) ∧ ∃ t, exec .init (st 3 5 0 []) = .next t :=
  ⟨⟨_, rfl⟩, exec_answers_next (by decide) _⟩

theorem witness_HardwareResetEffect :
    let s : State := { st 3 5 0 [1] with fault := true, cause := 6, schedule := [.reset] }
    s.cfg.Valid ∧ s.schedule = [.reset] := by decide

theorem witness_ResetLeavesEmptyBuffer :
    let s : State := { st 1 1 0 [1] with schedule := [.reset] }
    s.cfg.Valid ∧ s.schedule = [.reset] := by decide

/-- The smallest SIZE with its last offset in storage, and a state that is reset in the middle of a run. -/
theorem witness_ResetSatisfiesInvariant :
    let c : Config := { Config.reference with sizeLog2 := 1, cursorWidth := 2 }
    let m : Memory := [(0, 0xFF), (1, 0x01)]
    let s : State := { st 3 5 0 [1, 2, 3, 4, 5, 6, 7, 8] with fault := true, cause := 6 }
    (c.Valid ∧ Memory.wf m ∧ ∀ x ∈ m, x.1 < c.size) ∧
    (s.cfg.Valid ∧ Memory.wf s.storage ∧ ∀ x ∈ s.storage, x.1 < s.cfg.size) := by decide

theorem witness_StepKeepsInvariant :
    (served 0x0000000200000001#64 .producer [7, 8] (st 3 9 2 [])).Inv ∧
      ∃ t, step (served 0x0000000200000001#64 .producer [7, 8] (st 3 9 2 [])) = .next t := ⟨by decide, _, rfl⟩

theorem witness_ReservedSlotNeverUnread :
    (served 0x0000000200000001#64 .producer [7, 8] (st 3 9 2 [])).Inv := by decide

/-- Both sides of the last offset. -/
theorem witness_DmaStoreEffect :
    let s : State := { st 3 5 0 [1] with schedule := [.dmaStore 7 0xEE] }
    let u : State := { st 3 5 0 [1] with schedule := [.dmaStore 8 0xEE] }
    s.cfg.Valid ∧ Memory.wf s.storage ∧ 7 < s.cfg.size ∧ u.cfg.Valid ∧ Memory.wf u.storage ∧ u.cfg.size ≤ 8 := by
  decide

theorem witness_FaultEntryIsPrecise :
    let s := served 0x0000000000000003#64 .consumer [] (st 3 5 0 [])
    s.schedule = [.serve .consumer] ∧ s.queue .consumer = [{ word := 0x0000000000000003#64, payload := [] }] ∧
      s.fault = false ∧ (next? (step s)).map State.fault = some true := by decide

/-- Serving STATUS and another command, a reset and a DMA store while FAULT is 1. -/
theorem witness_FaultedState :
    let f : State := { st 3 5 0 [] with fault := true, cause := 6 }
    f.cfg.Valid ∧ f.fault = true ∧
    ran 0xF#64 .producer [] f = some (6, ans .producer false 0x361 []) ∧
    ran 0x0#64 .producer [] f = some (6, ans .producer true 0 []) ∧
    (next? (step { f with schedule := [.reset] })).map State.fault = some false ∧
    (next? (step { f with schedule := [.dmaStore 7 1] })).map (fun t => t.load 7) = some 1 := by decide

theorem witness_WrongPortRaisesRoleViolation :
    ran 0x1#64 .consumer [] (st 3 5 0 []) = some (6, ans .consumer true 0 []) ∧
    ran 0x2#64 .consumer [] (st 3 5 0 []) = some (6, ans .consumer true 0 []) ∧
    ran 0x3#64 .producer [] (st 3 5 0 []) = some (6, ans .producer true 0 []) ∧
    ran 0x4#64 .producer [] (st 3 5 0 []) = some (6, ans .producer true 0 []) ∧
    ran 0x5#64 .producer [] (st 3 5 0 []) = some (6, ans .producer true 0 []) := by decide

theorem witness_ZeroLengthRaises :
    let p := (st 3 5 0 []).take .producer []
    let c := (st 3 5 0 []).take .consumer []
    p.cfg.Valid ∧ p.fault = false ∧ p.arrival.payload = [] ∧ p.arrival.port = .producer ∧
    c.cfg.Valid ∧ c.fault = false ∧ c.arrival.payload = [] ∧ c.arrival.port = .consumer := by decide

/-- INIT and the queries on either port: IS_EMPTY, IS_FULL, FULL_COUNT (a valid configuration) and the counts (the
invariant), on a full buffer whose cursors have wrapped. -/
theorem witness_queries :
    let s := st 3 0x2 0xFFFFFFFB []
    s.Inv ∧ s.count = s.cfg.mask ∧ ((s.take .producer []).fault = false ∧ (s.take .producer []).arrival.payload = []) ∧
      ((s.take .consumer []).fault = false ∧ (s.take .consumer []).arrival.payload = []) := by decide

theorem witness_InitResult :
    let s := (st 3 13 10 []).take .consumer []
    s.cfg.Valid ∧ s.fault = false ∧ s.arrival.payload = [] := by decide

/-- STATUS with FAULT 0 and with FAULT 1. -/
theorem witness_StatusResult :
    let s := (st 31 0 0 []).take .consumer []
    let f : State := { s with fault := true, cause := 7 }
    s.cfg.Valid ∧ s.arrival.payload = [] ∧ f.cfg.Valid ∧ f.arrival.payload = [] := by decide

theorem witness_ResetAndInitAgree :
    let s := { st 3 13 10 [1] with queueC := [{ word := 0x8#64, payload := [] }] }.take .producer []
    s.Inv ∧ s.fault = false ∧ s.arrival.payload = [] ∧ (∃ t, exec .init s = .next t) ∧
    ∃ u, step { s with schedule := [.reset] } = .next u :=
  ⟨by decide, by decide, by decide, exec_answers_next (by decide) _, _, rfl⟩

theorem witness_EmptyAndFullAgreeWithCounts :
    (st 3 9 9 []).Inv ∧ (st 3 9 9 []).isEmpty = true ∧ (st 3 9 2 []).Inv ∧ (st 3 9 2 []).isFull = true ∧
    (st 1 1 0 []).Inv ∧ (st 1 1 0 []).isFull = true := by decide

theorem witness_CountQueryLaws :
    let s := (st 3 9 2 []).take .consumer []
    s.Inv ∧ s.Ready (.read (BitVec.ofNat 32 s.contigData)) ∧ s.contigData = 6 := by decide

theorem witness_QueriesHaveNoSideEffect :
    (next? (exec .isFull (st 3 9 2 []))).map State.fault = some (st 3 9 2 []).fault ∧
    (next? (exec .isFull { st 3 9 2 [] with fault := true, cause := 1 })).map State.fault = some true := by decide

/-- No overwrite at the last count that fits, an overwrite one above it, and `m = MASK`. -/
theorem witness_CommitEffectOnCount :
    (st 3 5 0 []).Inv ∧ (st 3 5 0 []).count + 2 ≤ (st 3 5 0 []).cfg.mask ∧ (st 3 5 0 []).cfg.mask < (st 3 5 0 []).count + 3 ∧
    7 ≤ (st 3 5 0 []).cfg.mask := by decide

/-- For WriteResult, WriteKeepsNewestBytes and OneOverwriteEventPerCommit: a WRITE that just fits. -/
theorem witness_WriteResult :
    let a := (st 3 5 0 [1, 2, 3, 4, 5]).take .producer [6, 7]
    a.Inv ∧ a.Ready (.write 2) ∧ 2 = a.cfg.mask - a.count := by decide

/-- One that overwrites. -/
theorem witness_WriteKeepsNewestBytes :
    let b := (st 3 5 0 [1, 2, 3, 4, 5]).take .producer [6, 7, 8]
    b.Inv ∧ b.Ready (.write 3) ∧ 3 > b.cfg.mask - b.count := by decide

/-- One of MASK bytes into a full buffer. -/
theorem witness_OneOverwriteEventPerCommit :
    let m := (st 3 7 0 []).take .producer [1, 2, 3, 4, 5, 6, 7]
    m.Inv ∧ m.Ready (.write 7) ∧ (7 : OperandWord).toNat < m.cfg.size ∧ m.free = 0 := by decide

theorem witness_WriteTooLongRejected :
    let s := (st 1 0 0 []).take .producer [1, 2]
    s.cfg.Valid ∧ s.fault = false ∧ s.arrival.port = .producer ∧ s.arrival.payload.length = (2 : OperandWord).toNat ∧
      s.cfg.size ≤ (2 : OperandWord).toNat := by decide

/-- With and without the collision. -/
theorem witness_SingleByteWriteFastPath :
    let a := (st 3 7 0 []).take .producer [0x99]
    let b := (st 3 6 0 []).take .producer [0x99]
    (a.Inv ∧ a.fault = false ∧ a.arrival.port = .producer ∧ a.arrival.payload = [0x99] ∧ a.isFull = true) ∧
    (b.Inv ∧ b.fault = false ∧ b.arrival.port = .producer ∧ b.arrival.payload = [0x99] ∧ b.isFull = false) := by decide

/-- DMA_ADVANCE ready, with an overwrite (D-9) and without one (D-8). -/
theorem witness_DmaAdvanceResult :
    let a : State := { st 5 31 0 [] with dmaCnt := 31 }
    let b := st 5 0 0 []
    (a.Inv ∧ a.Ready (.dmaAdvance 32) ∧ wrapSub a.cfg.size (producedOf a.cfg.size 32) a.dmaCnt > a.free) ∧
    (b.Inv ∧ b.Ready (.dmaAdvance 1) ∧ wrapSub b.cfg.size (producedOf b.cfg.size 1) b.dmaCnt = b.free) := by decide

/-- An accepted WRITE, one that is too long, one that is not ready, and DMA_ADVANCE; a violation. -/
theorem witness_ProducerFrame :
    (st 3 5 0 []).Inv ∧ (∃ t, exec (.write 2) ((st 3 5 0 []).take .producer [1, 2]) = .next t) ∧
    ¬ (st 3 5 0 []).OffsetWritten 2 7 ∧ (st 3 5 0 []).OffsetWritten 2 6 ∧
    (∃ t, exec (.write 8) ((st 3 5 0 []).take .producer [1, 2, 3, 4, 5, 6, 7, 8]) = .next t) ∧
    ¬ ((st 3 5 0 []).take .consumer [1]).Ready (.write 1) ∧
    ∃ t, exec (.dmaAdvance 1) ((st 3 5 0 []).take .producer []) = .next t :=
  ⟨by decide, exec_answers_next (by decide) _, by decide, by decide, exec_answers_next (by decide) _, by decide,
    exec_answers_next (by decide) _⟩

/-- For ReadResult and SingleByteReadFastPath: unread bytes, and an empty buffer. -/
theorem witness_ReadResult :
    let a := (st 3 17 14 [3, 0, 0, 0, 0, 0, 1, 2]).take .consumer []
    let b := (st 3 3 3 []).take .consumer []
    (a.Inv ∧ a.fault = false ∧ a.arrival.port = .consumer ∧ a.arrival.payload = [] ∧ 1 ≤ a.count) ∧
    (b.Inv ∧ b.fault = false ∧ b.arrival.port = .consumer ∧ b.arrival.payload = [] ∧ b.count = 0) := by decide

/-- The delimiter at the last byte of the budget (U-5), and past it (U-4). -/
theorem witness_ReadUntilResult :
    let a := (st 3 2 0 [1, 0x0A]).take .consumer []
    let b := (st 3 3 0 [1, 2, 0x0A]).take .consumer []
    (a.Inv ∧ a.Ready (.readUntil 2 0x0A) ∧ 1 < min 2 a.count ∧ a.load ((a.read + 1) % a.cfg.size) = 0x0A ∧
      ∀ j < 1, a.load ((a.read + j) % a.cfg.size) ≠ 0x0A) ∧
    (b.Inv ∧ b.Ready (.readUntil 2 0x0A) ∧ ∀ j < min 2 b.count, b.load ((b.read + j) % b.cfg.size) ≠ 0x0A) := by decide

/-- For the two SYNC_TO_BYTE statements: the marker is the last unread byte (S-5), and there is none (S-4). -/
theorem witness_SyncToByteResult :
    let a := (st 3 17 14 [0xAA, 0, 0, 0, 0, 0, 1, 2]).take .consumer []
    let b := (st 3 3 0 [1, 2, 3]).take .consumer []
    (a.Inv ∧ a.Ready (.syncToByte 0xAA) ∧ 2 < a.count ∧ a.load ((a.read + 2) % a.cfg.size) = 0xAA ∧
      ∀ j < 2, a.load ((a.read + j) % a.cfg.size) ≠ 0xAA) ∧
    (b.Inv ∧ b.Ready (.syncToByte 0xAA) ∧ ∀ j < b.count, b.load ((b.read + j) % b.cfg.size) ≠ 0xAA) := by decide

theorem witness_ConsumerFrame :
    (st 3 5 0 []).Inv ∧ (∃ t, exec (.read 2) ((st 3 5 0 []).take .consumer []) = .next t) ∧
    (∃ t, exec (.readUntil 2 7) ((st 3 5 0 []).take .consumer []) = .next t) ∧
    (∃ t, exec (.syncToByte 7) ((st 3 5 0 []).take .consumer []) = .next t) ∧
    ∃ t, exec (.read 0) ((st 3 5 0 []).take .consumer []) = .next t :=
  ⟨by decide, exec_answers_next (by decide) _, exec_answers_next (by decide) _, exec_answers_next (by decide) _,
    exec_answers_next (by decide) _⟩

/-- The state after an instruction. -/
def nxt (i : Instr) (s : State) : State := (next? (exec i s)).getD s

/-- The states of the run below: after the WRITE, when the READ arrives, after the READ, after the SYNC_TO_BYTE. -/
def fifo1 : State := nxt (.write 3) ((st 3 6 6 []).take .producer [1, 2, 3])
def fifo2 : State := (fifo1.store 1 0xEE).take .consumer []
def fifo3 : State := nxt (.read 1) fifo2
def fifo4 : State := nxt (.syncToByte 3) fifo3

/-- A run: WRITE 1, 2, 3 into an empty buffer, a DMA store outside the unread range, READ 1, SYNC_TO_BYTE 3. -/
theorem witness_RoundTripLaw :
    (st 3 6 6 []).Inv ∧ (st 3 6 6 []).fault = false ∧ (st 3 6 6 []).count = 0 ∧
      ∃ t, FifoRun (st 3 6 6 []) [1, 2, 3] [1, 2] t := by
  refine ⟨by decide, by decide, by decide, fifo4, .arrive .producer [1, 2, 3] ?_⟩
  have h3 : FifoRun fifo3 [] [2] fifo4 :=
    .command (s := fifo3) (s₁ := fifo4) (i := .syncToByte 3) (w := []) (c := []) (by decide) rfl (by decide) (by decide) (.done _)
  have h2 : FifoRun fifo2 [] [1, 2] fifo4 :=
    .command (s := fifo2) (s₁ := fifo3) (i := .read 1) (w := []) (c := [2]) (by decide) rfl (by decide) (by decide) h3
  have h1 : FifoRun fifo1 [] [1, 2] fifo4 := .dmaStore 1 0xEE (by decide) (by decide) (.arrive .consumer [] h2)
  exact .command (s₁ := fifo1) (i := .write 3) (w := []) (c := [1, 2]) (by decide) rfl (by decide) (by decide) h1

/-- Totals beyond 2^32, a WRITE that overwrites. -/
theorem witness_CursorsNeverGoBack :
    let s := (st 3 0x2 0xFFFFFFFB []).take .producer [1, 2]
    s.Inv ∧ Instr.opcode (.write 2) ≠ .init ∧ (∃ t, exec (.write 2) s = .next t) ∧
      (0x100000002 : Nat) % s.cfg.cursorModulus = s.write ∧ 0xFFFFFFFB % s.cfg.cursorModulus = s.read ∧
      (0x100000002 : Nat) - 0xFFFFFFFB ≤ s.cfg.mask :=
  ⟨by decide, by decide, exec_answers_next (by decide) _, by decide, by decide, by decide⟩

theorem witness_ProducedPosition :
    let c : Config := { Config.reference with sizeLog2 := 31 }
    c.Valid ∧ (1 : OperandWord).toInt ≤ c.mask ∧ (0x7FFFFFFF : OperandWord).toInt = c.mask ∧
      (0 : OperandWord).toInt < 1 ∧ (0x80000000 : OperandWord).toInt < 1 ∧
      (8 : OperandWord).toInt > Config.reference.mask := by decide

/-- D-10: 40 bytes between two samples of SIZE 32; and a whole lap. -/
theorem witness_WholeLapsAreLost :
    let s := (st 5 0 0 []).take .producer []
    s.Inv ∧ s.fault = false ∧ s.arrival.port = .producer ∧ s.arrival.payload = [] ∧ s.dmaCnt = 0 % s.cfg.size ∧
      CountdownReads s.cfg.size (0 + 40) (24 : OperandWord).toInt ∧
      CountdownReads s.cfg.size (0 + 32) (32 : OperandWord).toInt ∧
      CountdownReads s.cfg.size (0 + 32) (0 : OperandWord).toInt := by
  refine ⟨by decide, by decide, by decide, by decide, by decide, ?_, ?_, ?_⟩ <;> unfold CountdownReads <;> decide

/-- V3: samples 22 and 12 after ten and twenty bytes, with a peripheral store and a query between them. -/
theorem witness_CumulativeDmaAdvance :
    (st 5 0 0 []).Inv ∧ (st 5 0 0 []).fault = false ∧ (st 5 0 0 []).dmaCnt = 0 % (st 5 0 0 []).cfg.size ∧
      ∃ t, SampledRun (st 5 0 0 []) 0 t 20 := by
  refine ⟨by decide, by decide, by decide, ?_⟩
  exact ⟨_, .arrive .producer []
    (.sample (T := 10) (v := 22) (by decide) (by unfold CountdownReads; decide) rfl rfl
      (.store 10 0x33 (by decide)
        (.other (i := .dataCount) (by decide) rfl rfl
          (.sample (T := 10) (v := 12) (by decide) (by unfold CountdownReads; decide) rfl rfl (.done _ _)))))⟩

/-- Two bytes unread at offsets 4 and 5, the peripheral at its byte 14 (offset 6); the states when the READ arrives, and
after it; then four more stores and six more. -/
def dma0 : State := { st 3 14 12 [0, 0, 0, 0, 0xA4, 0xA5] with dmaCnt := 6 }
def dma1 : State := (dma0.store 6 1).take .consumer []
def dma2 : State := nxt (.read 1) dma1
def dma5 : State := ((((dma2.store 7 2).store 0 3).store 1 4).store 2 5).take .producer []
def dma7 : State := ((dma5.store 3 6).store 4 7).take .producer []

/-- Five stores, as many as are free, with a READ 1 after the first one; and seven, SIZE - 1. -/
theorem witness_DisciplinedDmaDeliversItsBytes :
    dma0.Inv ∧ dma0.fault = false ∧ dma0.DmaAligned 14 ∧
    (DisciplinedRun dma0 14 [1, 2, 3, 4, 5] [0xA4] dma5 ∧ ([1, 2, 3, 4, 5] : List Byte).length = dma0.free ∧
      dma5.arrival.port = .producer ∧ dma5.arrival.payload = [] ∧
      CountdownReads dma0.cfg.size (14 + 5) (5 : OperandWord).toInt) ∧
    (DisciplinedRun dma0 14 [1, 2, 3, 4, 5, 6, 7] [0xA4] dma7 ∧
      ([1, 2, 3, 4, 5, 6, 7] : List Byte).length = dma0.cfg.size - 1 ∧
      dma7.arrival.port = .producer ∧ dma7.arrival.payload = [] ∧
      CountdownReads dma0.cfg.size (14 + 7) (3 : OperandWord).toInt) ∧
    ∃ t, exec .init (dma0.take .producer []) = .next t ∧ t.fault = false := by
  have run : ∀ {bs u}, DisciplinedRun (dma2.store 7 2) 16 bs [] u → DisciplinedRun dma0 14 (1 :: 2 :: bs) [0xA4] u :=
    fun rest => .store 1 (.arrive .consumer [] (.command (s := dma1) (s₁ := dma2) (i := .read 1) (c := [])
      (by decide) rfl (by decide) (.store 2 rest)))
  refine ⟨by decide, by decide, by decide, ⟨?_, by decide, by decide, by decide, ?_⟩,
    ⟨?_, by decide, by decide, by decide, ?_⟩, _, rfl, by decide⟩
  · exact run (.store 3 (.store 4 (.store 5 (.arrive .producer [] (.done _ _)))))
  · unfold CountdownReads; decide
  · exact run (.store 3 (.store 4 (.store 5 (.arrive .producer [] (.store 6 (.store 7
      (.arrive .producer [] (.done _ _))))))))
  · unfold CountdownReads; decide

/-- The samples after those runs: one byte was taken out; then the buffer is full and the oldest byte is dropped. -/
theorem test_dma_delivers :
    (next? (exec (.dmaAdvance 5) dma5)).map (fun t => (t.unread, t.fullCnt)) = some ([0xA5, 1, 2, 3, 4, 5], 0) ∧
    (next? (exec (.dmaAdvance 3) dma7)).map (fun t => (t.unread, t.fullCnt)) = some ([1, 2, 3, 4, 5, 6, 7], 1) := by
  decide

/-- SIZE = 8 with W = 32 and with W = 4, a READ about to be taken. -/
theorem witness_ResponsesDoNotDependOnWidth :
    let s := served 0x0000000200000003#64 .consumer [] (st 3 21 18 [1, 2, 3, 4, 5])
    let t : State := { s with write := 5, read := 2, cfg := { s.cfg with cursorWidth := 4, name := "rx" } }
    SameButForWidth s t ∧ ∃ s', step s = .next s' := ⟨by decide, _, rfl⟩

end Sys2Proof.Tests
end

/-! # Scope: the invariant at reset and over a step, and what the width cannot change

The invariant is carried through every operation of the model and from there, over the inversions `Completes`, `Ran`,
`WordRan` and `Stepped`, through a step. The independence of W is a lockstep simulation: `Agree` relates two machines
that see the same offsets, every operation keeps it, and `Alike` outcomes are those whose next states agree. -/

namespace Sys2Proof.Machine

/-! ### The invariant over the operations that Laws/Cursors.lean leaves out -/

/-- With both cursors and `dma_cnt` at 0 only the configuration, storage and the fault record remain to be checked. -/
theorem State.inv_of_cursors_zero {s : State} (hv : s.cfg.Valid) (hwrite : s.write = 0) (hread : s.read = 0)
    (hdma : s.dmaCnt = 0) (hwf : Memory.wf s.storage) (hbound : ∀ c ∈ s.storage, c.1 < s.cfg.size)
    (hgood : s.fault = false → s.cause = 0#4)
    (hbad : s.fault = true → 1 ≤ s.cause.toNat ∧ s.cause.toNat ≤ 7) : s.Inv := by
  have hM := Config.cursorModulus_pos s.cfg
  have hsize := Config.size_pos s.cfg
  have hdist : s.cursorSub s.write s.read = 0 := by simp [State.cursorSub, wrapSub, hwrite, hread]
  exact ⟨hv, by omega, by omega, by omega, by omega, hwf, hbound, hgood, hbad⟩

/-- Reset establishes the invariant over any valid configuration and well-formed storage (rules R40, R230). -/
theorem State.inv_hardReset {s : State} (hv : s.cfg.Valid) (hwf : Memory.wf s.storage)
    (hbound : ∀ c ∈ s.storage, c.1 < s.cfg.size) : s.hardReset.Inv :=
  State.inv_of_cursors_zero hv rfl rfl rfl hwf hbound (fun _ => rfl) (fun h => Bool.noConfusion h)

section
variable {s : State}

theorem State.Inv.answer (h : s.Inv) (r : ResultWord) (d : List Byte) : (s.answer r d).Inv := h

theorem State.Inv.answerErr (h : s.Inv) : s.answerErr.Inv := h

theorem State.Inv.setSchedule (h : s.Inv) (es : List Event) : ({ s with schedule := es } : State).Inv := h

theorem State.Inv.take (h : s.Inv) (p : Port) (bs : List Byte) : (s.take p bs).Inv := h

theorem State.Inv.setQueue (h : s.Inv) (p : Port) (q : List Command) : (s.setQueue p q).Inv := by
  cases p <;> exact h

theorem State.Inv.hardReset (h : s.Inv) : s.hardReset.Inv := by
  obtain ⟨hv, -, -, -, -, hwf, hbound, -⟩ := h
  exact State.inv_hardReset hv hwf hbound

/-- INIT's register writes leave storage and the fault record alone (rule R100). -/
theorem State.Inv.clearCursors (h : s.Inv) :
    ({ s with write := 0, read := 0, dmaCnt := 0, fullCnt := 0 } : State).Inv := by
  obtain ⟨hv, -, -, -, -, hwf, hbound, hgood, hbad⟩ := h
  exact State.inv_of_cursors_zero hv rfl rfl rfl hwf hbound hgood hbad

theorem State.Inv.setDmaCnt (h : s.Inv) {p : Nat} (hp : p < s.cfg.size) : ({ s with dmaCnt := p } : State).Inv := by
  obtain ⟨hv, hw, hr, -, hrest⟩ := h
  exact ⟨hv, hw, hr, hp, hrest⟩

theorem State.Inv.reconcile (h : s.Inv) {p : Nat} (hp : p < s.cfg.size) : (s.reconcile p).Inv := by
  have hdelta : wrapSub s.cfg.size p s.dmaCnt ≤ s.cfg.mask :=
    Nat.le_sub_one_of_lt (wrapSub_size_lt s.cfg p s.dmaCnt)
  exact (h.setDmaCnt hp).commit hdelta

theorem State.Inv.writePayload (h : s.Inv) {n : Nat} (hn : n < s.cfg.size) : (s.writePayload n).Inv := by
  have hmask : n ≤ s.cfg.mask := Nat.le_sub_one_of_lt hn
  exact (h.storeRunFrom s.write 0 s.arrival.payload).commit (by simpa using hmask)

theorem State.Inv.consume (h : s.Inv) {data : List Byte} (hd : data.length ≤ s.count) : (s.consume data).Inv :=
  (h.advanceRead hd).answer _ _

end

/-! ### The invariant over a step -/

/-- Every command's own rule keeps the invariant. -/
theorem Completes.keeps_inv {i : Instr} {s t : State} (h : Completes i s t) (hi : s.Inv) : t.Inv := by
  cases h with
  | init => exact hi.clearCursors.answer _ _
  | write _ n _ hn _ => exact (hi.writePayload hn).answer _ _
  | dmaAdvance _ v => exact (hi.reconcile (producedOf_lt (Config.size_pos s.cfg) v.toInt)).answer _ _
  | read _ n _ => exact hi.consume (by simp)
  | readUntil _ n d _ => exact hi.consume (length_emitUntil_le_count s d n.toNat)
  | syncToByte _ b => exact (hi.advanceRead (by simpa using dropsBefore_le b s.unread)).answer _ _
  | _ => exact hi.answer _ _

theorem Ran.keeps_inv {i : Instr} {s t : State} (h : Ran i s t) (hi : s.Inv) : t.Inv := by
  cases h with
  | faulted _ _ he => exact he ▸ hi.answerErr
  | violated _ c _ he => exact he ▸ hi.violated c
  | completed _ hc => exact hc.keeps_inv hi

theorem WordRan.keeps_inv {w : CommandWord} {s t : State} (h : WordRan w s t) (hi : s.Inv) : t.Inv := by
  cases h with
  | ran i _ hr => exact hr.keeps_inv hi
  | faulted _ _ _ he => exact he ▸ hi.answerErr
  | violated _ _ _ c he => exact he ▸ hi.violated c

theorem Stepped.keeps_inv {s t : State} (h : Stepped s t) (hi : s.Inv) : t.Inv := by
  cases h with
  | idle _ he => exact he ▸ hi
  | issue p c rest _ he => exact he ▸ (hi.setSchedule rest).setQueue p _
  | nothingWaiting _ rest _ _ he => exact he ▸ hi.setSchedule rest
  | served p rest c q _ _ hw => exact hw.keeps_inv (((hi.setSchedule rest).setQueue p q).take p c.payload)
  | dmaStore off b rest _ ho he => exact he ▸ (hi.setSchedule rest).store ho b
  | reset rest _ he => exact he ▸ (hi.setSchedule rest).hardReset

/-- Settles O17: by the cases of a step, each an operation that keeps the invariant. -/
theorem stepKeepsInvariant : Obligations.StepKeepsInvariant := fun _ _ hi hs => (step_next hs).2.keeps_inv hi

/-- Settles O16: `State.reset`, over its own or any other configuration and storage, is a hardware reset of itself. -/
theorem resetSatisfiesInvariant : Obligations.ResetSatisfiesInvariant :=
  ⟨State.inv_hardReset (s := State.reset) (by decide) State.reset_storage_wf (by simp [State.reset]),
    fun c m => State.inv_hardReset (s := { State.reset with cfg := c, storage := m }),
    fun _ => State.inv_hardReset⟩

/-! ### Offsets of moved cursors, in terms of the offsets they start from (rule R12) -/

theorem State.offset_cursorAdd_offset {s : State} (h : s.cfg.Valid) (c i : Nat) :
    s.offset (s.cursorAdd c i) = (s.offset c + i) % s.cfg.size := by
  rw [State.offset_cursorAdd h, State.offset_eq_mod, Nat.mod_add_mod]

theorem wrapSub_mod_mod (n a b : Nat) : wrapSub n (a % n) (b % n) = wrapSub n a b := by
  simp only [wrapSub, Int.natCast_mod, ← Int.sub_emod]

theorem State.offset_cursorSub_offset {s : State} (h : s.cfg.Valid) (a b : Nat) :
    s.offset (s.cursorSub a b) = wrapSub s.cfg.size (s.offset a) (s.offset b) := by
  simp only [State.offset_eq_mod, wrapSub_mod_mod, State.cursorSub]
  exact wrapSub_mod_of_dvd (Config.cursorModulus_pos _) (Config.size_pos _) (Config.size_dvd_cursorModulus h) a b

/-! ### Two machines that see the same offsets -/

/-- `SameButForWidth` without the invariants: both configurations are valid, and all that a response can be computed
from is equal. -/
structure Agree (s t : State) : Prop where
  validLeft  : s.cfg.Valid
  validRight : t.cfg.Valid
  sizeLog2 : s.cfg.sizeLog2 = t.cfg.sizeLog2
  pw       : s.pw = t.pw
  pr       : s.pr = t.pr
  dmaCnt   : s.dmaCnt = t.dmaCnt
  fullCnt  : s.fullCnt = t.fullCnt
  fault    : s.fault = t.fault
  cause    : s.cause = t.cause
  storage  : s.storage = t.storage
  queueP   : s.queueP = t.queueP
  queueC   : s.queueC = t.queueC
  arrival  : s.arrival = t.arrival
  answers  : s.answers = t.answers
  schedule : s.schedule = t.schedule

theorem sameButForWidth_iff {s t : State} : SameButForWidth s t ↔ s.Inv ∧ t.Inv ∧ Agree s t := by
  constructor
  · rintro ⟨hs, ht, hz, hpw, hpr, hd, hn, hf, hc, hm, hqp, hqc, ha, hans, hsch⟩
    exact ⟨hs, ht, hs.1, ht.1, hz, hpw, hpr, hd, hn, hf, hc, hm, hqp, hqc, ha, hans, hsch⟩
  · rintro ⟨hs, ht, -, -, hz, hpw, hpr, hd, hn, hf, hc, hm, hqp, hqc, ha, hans, hsch⟩
    exact ⟨hs, ht, hz, hpw, hpr, hd, hn, hf, hc, hm, hqp, hqc, ha, hans, hsch⟩

section
variable {s t : State}

/-! ### What agreeing machines compute alike -/

theorem Agree.size (h : Agree s t) : s.cfg.size = t.cfg.size := congrArg (2 ^ ·) h.sizeLog2

theorem Agree.mask (h : Agree s t) : s.cfg.mask = t.cfg.mask := congrArg (· - 1) h.size

theorem Agree.offset (h : Agree s t) (c : Nat) : s.offset c = t.offset c := congrArg (c &&& ·) h.mask

theorem Agree.load (h : Agree s t) (off : Nat) : s.load off = t.load off := congrArg (Memory.read · off) h.storage

theorem Agree.queue (h : Agree s t) (p : Port) : s.queue p = t.queue p := by
  cases p
  · exact h.queueP
  · exact h.queueC

/-- Cursors at one offset are at one offset after the same advance. -/
theorem Agree.offset_cursorAdd (h : Agree s t) {c d : Nat} (hc : s.offset c = t.offset d) (i : Nat) :
    s.offset (s.cursorAdd c i) = t.offset (t.cursorAdd d i) := by
  rw [State.offset_cursorAdd_offset h.validLeft, State.offset_cursorAdd_offset h.validRight, hc, h.size]

/-- Two pairs of cursors at the same offsets have the same distance modulo SIZE. -/
theorem Agree.offset_cursorSub (h : Agree s t) {a b c d : Nat} (ha : s.offset a = t.offset c)
    (hb : s.offset b = t.offset d) : s.offset (s.cursorSub a b) = t.offset (t.cursorSub c d) := by
  rw [State.offset_cursorSub_offset h.validLeft, State.offset_cursorSub_offset h.validRight, ha, hb, h.size]

theorem Agree.count (h : Agree s t) : s.count = t.count := h.offset_cursorSub h.pw h.pr

theorem Agree.free (h : Agree s t) : s.free = t.free := by
  unfold State.free
  rw [h.mask, h.count]

theorem Agree.isEmpty (h : Agree s t) : s.isEmpty = t.isEmpty := by
  unfold State.isEmpty
  rw [h.pw, h.pr]

theorem Agree.isFull (h : Agree s t) : s.isFull = t.isFull := by
  unfold State.isFull
  rw [h.offset_cursorAdd h.pw, h.pr]

theorem Agree.contigData (h : Agree s t) : s.contigData = t.contigData := by
  unfold State.contigData
  rw [h.count, h.size, h.pr]

theorem Agree.contigEmpty (h : Agree s t) : s.contigEmpty = t.contigEmpty := by
  unfold State.contigEmpty
  rw [h.free, h.size, h.pw]

theorem Agree.statusWord (h : Agree s t) : s.statusWord = t.statusWord := by
  unfold State.statusWord
  rw [h.sizeLog2, h.cause, h.fault]

/-- The bytes from `read` on are the same in both machines. -/
theorem Agree.loadRun_read (h : Agree s t) (m : Nat) : s.loadRun s.read m = t.loadRun t.read m :=
  State.loadRun_congr fun i _ => by rw [h.offset_cursorAdd h.pr, h.load]

/-! ### Agreement, operation by operation -/

theorem Agree.answer (h : Agree s t) {r r' : ResultWord} (hr : r = r') {d d' : List Byte} (hd : d = d') :
    Agree (s.answer r d) (t.answer r' d') :=
  { h with answers := by simp [h.answers, h.arrival, hr, hd] }

theorem Agree.answerErr (h : Agree s t) : Agree s.answerErr t.answerErr :=
  { h with answers := by simp [h.answers, h.arrival] }

theorem Agree.violated (h : Agree s t) (c : Cause) : Agree (s.violated c) (t.violated c) :=
  { h with fault := rfl, cause := rfl, answers := by simp [h.answers, h.arrival] }

theorem Agree.store (h : Agree s t) (off : Nat) (b : Byte) : Agree (s.store off b) (t.store off b) :=
  { h with storage := congrArg (Memory.write · off b) h.storage }

theorem Agree.storeRunFrom (h : Agree s t) {c d : Nat} (hc : s.offset c = t.offset d) (i : Nat) (bs : List Byte) :
    Agree (s.storeRunFrom c i bs) (t.storeRunFrom d i bs) := by
  induction bs generalizing s t i with
  | nil => exact h
  | cons b bs ih =>
    unfold State.storeRunFrom
    rw [h.offset_cursorAdd hc i]
    exact ih (h.store _ b) hc (i + 1)

theorem Agree.advanceWrite (h : Agree s t) (m : Nat) : Agree (s.advanceWrite m) (t.advanceWrite m) :=
  { h with pw := h.offset_cursorAdd h.pw m }

theorem Agree.advanceRead (h : Agree s t) (m : Nat) : Agree (s.advanceRead m) (t.advanceRead m) :=
  { h with pr := h.offset_cursorAdd h.pr m }

theorem Agree.overwriteOldest (h : Agree s t) : Agree s.overwriteOldest t.overwriteOldest :=
  { h with
    pr := h.offset_cursorSub h.pw (by rw [h.mask, h.offset])
    fullCnt := congrArg (· + 1) h.fullCnt }

theorem Agree.commit (h : Agree s t) (m : Nat) : Agree (s.commit m) (t.commit m) := by
  unfold State.commit
  rw [h.free]
  split
  · exact (h.advanceWrite m).overwriteOldest
  · exact h.advanceWrite m

theorem Agree.setDmaCnt (h : Agree s t) (p : Nat) : Agree { s with dmaCnt := p } { t with dmaCnt := p } :=
  { h with dmaCnt := rfl }

theorem Agree.reconcile (h : Agree s t) (p : Nat) : Agree (s.reconcile p) (t.reconcile p) := by
  unfold State.reconcile
  rw [h.size, h.dmaCnt]
  exact (h.setDmaCnt p).commit _

theorem Agree.writePayload (h : Agree s t) (n : Nat) : Agree (s.writePayload n) (t.writePayload n) := by
  unfold State.writePayload
  rw [h.arrival]
  exact (h.storeRunFrom h.pw 0 _).commit n

theorem Agree.consume (h : Agree s t) {d d' : List Byte} (hd : d = d') : Agree (s.consume d) (t.consume d') := by
  subst hd
  exact (h.advanceRead d.length).answer rfl rfl

theorem Agree.clearCursors (h : Agree s t) :
    Agree { s with write := 0, read := 0, dmaCnt := 0, fullCnt := 0 }
      { t with write := 0, read := 0, dmaCnt := 0, fullCnt := 0 } :=
  { h with pw := h.offset 0, pr := h.offset 0, dmaCnt := rfl, fullCnt := rfl }

theorem Agree.hardReset (h : Agree s t) : Agree s.hardReset t.hardReset :=
  { h.clearCursors with fault := rfl, cause := rfl, queueP := rfl, queueC := rfl }

theorem Agree.setSchedule (h : Agree s t) (es : List Event) :
    Agree { s with schedule := es } { t with schedule := es } :=
  { h with schedule := rfl }

theorem Agree.take (h : Agree s t) (p : Port) (bs : List Byte) : Agree (s.take p bs) (t.take p bs) :=
  { h with arrival := rfl }

theorem Agree.setQueue (h : Agree s t) (p : Port) (q : List Command) : Agree (s.setQueue p q) (t.setQueue p q) := by
  cases p
  · exact { h with queueP := rfl }
  · exact { h with queueC := rfl }

/-! ### Outcomes that agree -/

/-- Both machines go on, in states that agree, or both stop with the same fault. -/
inductive Alike : Result → Result → Prop where
  | next {s t : State} (h : Agree s t) : Alike (.next s) (.next t)
  | fault (r : Fault) : Alike (.fault r) (.fault r)

theorem Alike.exists_next {r : Result} (h : Alike (.next s) r) : ∃ t, r = .next t ∧ Agree s t := by
  cases h with
  | next h => exact ⟨_, rfl, h⟩

theorem Agree.raiseFault (h : Agree s t) (c : Cause) : Alike (raiseFault c s) (raiseFault c t) := .next (h.violated c)

/-- The checks of rule R81 come out alike; what remains to show is that the command's own rule does. -/
theorem Agree.accept (h : Agree s t) (i : Instr) {f g : State → Result} (hfg : Alike (f s) (g t)) :
    Alike (accept i f s) (accept i g t) := by
  unfold Machine.accept
  rw [if_neg (not_not.2 h.validLeft), if_neg (not_not.2 h.validRight), h.fault, h.arrival]
  split
  · exact .next h.answerErr
  · split
    · exact h.raiseFault _
    · split
      · exact h.raiseFault _
      · exact hfg

/-- A command that only answers, with a result both machines compute alike. -/
theorem Agree.acceptAnswer (h : Agree s t) (i : Instr) (r : State → ResultWord) (hr : r s = r t) :
    Alike (Machine.accept i (fun u => .next (u.answer (r u) [])) s)
      (Machine.accept i (fun u => .next (u.answer (r u) [])) t) := by
  refine h.accept i ?_
  exact .next (h.answer hr rfl)

theorem Agree.execInit (h : Agree s t) : Alike (execInit s) (execInit t) := by
  refine h.accept _ ?_
  exact .next (h.clearCursors.answer rfl rfl)

theorem Agree.execStatus (h : Agree s t) : Alike (execStatus s) (execStatus t) := by
  have hcond : (s.cfg.Valid ∧ s.fault = true ∧ s.arrival.payload = []) ↔
      (t.cfg.Valid ∧ t.fault = true ∧ t.arrival.payload = []) :=
    and_congr (iff_of_true h.validLeft h.validRight) (by rw [h.fault, h.arrival])
  unfold Machine.execStatus
  by_cases hc : t.cfg.Valid ∧ t.fault = true ∧ t.arrival.payload = []
  · rw [if_pos (hcond.2 hc), if_pos hc]
    exact .next (h.answer h.statusWord rfl)
  · rw [if_neg (mt hcond.1 hc), if_neg hc]
    exact h.acceptAnswer _ State.statusWord h.statusWord

theorem Agree.execWrite (h : Agree s t) (n : OperandWord) : Alike (execWrite n s) (execWrite n t) := by
  refine h.accept _ ?_
  rw [h.size]
  split
  · exact h.raiseFault _
  · split
    · exact .next (h.answer rfl rfl)
    · exact .next ((h.writePayload _).answer rfl rfl)

theorem Agree.execRead (h : Agree s t) (n : OperandWord) : Alike (execRead n s) (execRead n t) := by
  refine h.accept _ ?_
  rw [h.count, h.loadRun_read]
  split
  · exact h.raiseFault _
  · exact .next (h.consume rfl)

theorem Agree.execReadUntil (h : Agree s t) (n : OperandWord) (d : Byte) :
    Alike (execReadUntil n d s) (execReadUntil n d t) := by
  refine h.accept _ ?_
  rw [h.count, h.loadRun_read]
  split
  · exact h.raiseFault _
  · exact .next (h.consume rfl)

theorem Agree.execSyncToByte (h : Agree s t) (b : Byte) : Alike (execSyncToByte b s) (execSyncToByte b t) := by
  refine h.accept _ ?_
  rw [h.count, h.loadRun_read]
  exact .next ((h.advanceRead _).answer rfl rfl)

theorem Agree.execDmaAdvance (h : Agree s t) (v : OperandWord) : Alike (execDmaAdvance v s) (execDmaAdvance v t) := by
  refine h.accept _ ?_
  rw [h.size]
  exact .next ((h.reconcile _).answer rfl rfl)

/-- Every command runs alike on machines that agree. -/
theorem Agree.exec (h : Agree s t) (i : Instr) : Alike (exec i s) (exec i t) := by
  cases i with
  | init => exact h.execInit
  | write n => exact h.execWrite n
  | dmaAdvance v => exact h.execDmaAdvance v
  | read n => exact h.execRead n
  | readUntil n d => exact h.execReadUntil n d
  | syncToByte b => exact h.execSyncToByte b
  | isEmpty => exact h.acceptAnswer _ (resultOfBool ·.isEmpty) (congrArg _ h.isEmpty)
  | isFull => exact h.acceptAnswer _ (resultOfBool ·.isFull) (congrArg _ h.isFull)
  | dataCount => exact h.acceptAnswer _ (resultOfNat ·.count) (congrArg _ h.count)
  | emptyCount => exact h.acceptAnswer _ (resultOfNat ·.free) (congrArg _ h.free)
  | contigDataCount => exact h.acceptAnswer _ (resultOfNat ·.contigData) (congrArg _ h.contigData)
  | contigEmptyCount => exact h.acceptAnswer _ (resultOfNat ·.contigEmpty) (congrArg _ h.contigEmpty)
  | fullCount => exact h.acceptAnswer _ State.fullCnt h.fullCnt
  | status => exact h.execStatus

/-! ### A step of two machines that agree -/

theorem Agree.rejectWord (h : Agree s t) (r : Reject) : Alike (rejectWord r s) (rejectWord r t) := by
  unfold Machine.rejectWord
  rw [if_neg (not_not.2 h.validLeft), if_neg (not_not.2 h.validRight), h.fault, h.arrival]
  split
  · exact .next h.answerErr
  · cases r with
    | reservedOpcode => exact h.raiseFault _
    | reservedField op =>
      dsimp only
      split
      · exact h.raiseFault _
      · exact h.raiseFault _

theorem Agree.runWord (h : Agree s t) (w : CommandWord) : Alike (runWord w s) (runWord w t) := by
  unfold Machine.runWord
  cases decodeWord w with
  | ok i => exact h.exec i
  | error r => exact h.rejectWord r

theorem Agree.serveEvent (h : Agree s t) (p : Port) : Alike (serveEvent p s) (serveEvent p t) := by
  unfold Machine.serveEvent
  rw [h.queue p]
  cases t.queue p with
  | nil => exact .next h
  | cons c rest => exact ((h.setQueue p rest).take p c.payload).runWord c.word

theorem Agree.dmaStoreEvent (h : Agree s t) (off : Nat) (b : Byte) :
    Alike (dmaStoreEvent off b s) (dmaStoreEvent off b t) := by
  unfold Machine.dmaStoreEvent
  rw [h.size]
  split
  · exact .next (h.store off b)
  · exact .fault _

theorem Agree.runEvent (h : Agree s t) (e : Event) : Alike (runEvent e s) (runEvent e t) := by
  cases e with
  | issue p c => exact .next (h.queue p ▸ h.setQueue p _)
  | serve p => exact h.serveEvent p
  | dmaStore off b => exact h.dmaStoreEvent off b
  | reset => exact .next h.hardReset

/-- The commuting diagram: machines that agree step alike, also where the step is a fault. -/
theorem Agree.step (h : Agree s t) : Alike (step s) (step t) := by
  unfold Machine.step runSchedule
  rw [if_neg (not_not.2 h.validLeft), if_neg (not_not.2 h.validRight), h.schedule]
  cases t.schedule with
  | nil => exact .next h
  | cons e rest => exact (h.setSchedule rest).runEvent e

end

/-- Settles O57: the two machines run in lockstep, and each keeps its invariant (`stepKeepsInvariant`). -/
theorem responsesDoNotDependOnWidth : Obligations.ResponsesDoNotDependOnWidth := by
  intro s t s' hst hs
  obtain ⟨hsInv, htInv, hagree⟩ := sameButForWidth_iff.1 hst
  obtain ⟨t', ht, hagree'⟩ := (hs ▸ hagree.step).exists_next
  exact ⟨t', ht, sameButForWidth_iff.2
    ⟨stepKeepsInvariant s s' hsInv hs, stepKeepsInvariant t t' htInv ht, hagree'⟩⟩

end Sys2Proof.Machine

/-! # Scope: the state

What no step changes or gives up (the configuration, the reserved slot), what WRITE and DMA_ADVANCE leave alone, and
the cursors as unbounded totals. -/

namespace Sys2Proof.Machine

/-! ### The configuration (rule R38) -/

theorem Ran.cfg_eq {i : Instr} {s t : State} (h : Ran i s t) : t.cfg = s.cfg := h.sameInterface.1

theorem WordRan.cfg_eq {w : CommandWord} {s t : State} (h : WordRan w s t) : t.cfg = s.cfg := by
  cases h with
  | ran _ _ hr => exact hr.cfg_eq
  | faulted _ _ _ he => exact he ▸ rfl
  | violated _ _ _ _ he => exact he ▸ rfl

theorem Stepped.cfg_eq {s t : State} (h : Stepped s t) : t.cfg = s.cfg := by
  cases h with
  | idle _ he => exact he ▸ rfl
  | issue p c rest _ he => simp [he]
  | nothingWaiting _ _ _ _ he => exact he ▸ rfl
  | served p rest c q _ _ hw => simpa using hw.cfg_eq
  | dmaStore _ _ _ _ _ he => exact he ▸ rfl
  | reset _ _ he => exact he ▸ rfl

/-- Settles O13: by the cases of a step and of an instruction. -/
theorem configurationNeverChanges : Obligations.ConfigurationNeverChanges :=
  ⟨fun _ _ hs => (step_next hs).2.cfg_eq, fun _ _ _ he => (exec_next he).2.cfg_eq⟩

/-! ### The reserved slot (rule R30) -/

/-- `pw` is the offset of logical index `count` from `read`, and indices below SIZE have different offsets. -/
theorem State.Inv.pw_not_unread {s : State} (h : s.Inv) : ¬ s.OffsetUnread s.pw := by
  rintro ⟨i, hi, hoff⟩
  have hmask := s.count_le_mask
  have hsize := s.cfg.size_eq
  unfold State.pw at hoff
  rw [← h.write_eq] at hoff
  have hcount : s.count = i := State.offset_cursorAdd_inj h.1 hoff (by omega) (by omega)
  omega

theorem State.Inv.reservedSlot {s : State} (h : s.Inv) :
    s.cursorSub s.write s.read ≤ s.cfg.mask ∧ s.unread.length ≤ s.cfg.size - 1 ∧ ¬ s.OffsetUnread s.pw := by
  have hunread : s.unread.length ≤ s.cfg.mask := by simpa using s.count_le_mask
  exact ⟨h.count_eq ▸ s.count_le_mask, hunread, h.pw_not_unread⟩

/-- Settles O18: the invariant implies it, and every step keeps the invariant. -/
theorem reservedSlotNeverUnread : Obligations.ReservedSlotNeverUnread :=
  fun s hi => ⟨hi.reservedSlot, fun t hs => (stepKeepsInvariant s t hi hs).reservedSlot⟩

/-! ### The frame of WRITE and DMA_ADVANCE -/

theorem State.load_congr {s t : State} (h : s.storage = t.storage) (a : Nat) : s.load a = t.load a :=
  congrArg (Memory.read · a) h

/-- An accepted WRITE stores at the offsets of its payload only (rule R135). -/
theorem State.load_writePayload_other {s : State} {n a : Nat} (hwf : Memory.wf s.storage)
    (hp : s.arrival.payload.length = n) (ha : ¬ s.OffsetWritten n a) : (s.writePayload n).load a = s.load a := by
  have hne : ∀ k < s.arrival.payload.length, a ≠ s.offset (s.cursorAdd s.write (0 + k)) :=
    fun k hk hoff => ha ⟨k, hp ▸ hk, by rwa [Nat.zero_add] at hoff⟩
  calc (s.writePayload n).load a
      = (s.storeRunFrom s.write 0 s.arrival.payload).load a := State.load_congr (State.commit_storage _ n) a
    _ = s.load a := State.load_storeRunFrom_other s.write 0 _ hwf a hne

section
variable {s t : State} {i : Instr}

/-- Every instruction gives one response (rule R71). -/
theorem Ran.answers_append (h : Ran i s t) : ∃ a, t.answers = s.answers ++ [a] := by
  cases h with
  | faulted _ _ he => exact ⟨_, congrArg State.answers he⟩
  | violated _ _ _ he => exact ⟨_, congrArg State.answers he⟩
  | completed _ hc =>
    obtain ⟨_, _, ha⟩ := hc.answers
    exact ⟨_, ha⟩

/-- FAULT and CAUSE change by a contract violation only, which changes no other register and no storage (rule R205). -/
theorem Ran.fault_kept_or_entered (h : Ran i s t) :
    t.fault = s.fault ∧ t.cause = s.cause ∨
      s.fault = false ∧ t.fault = true ∧ t.write = s.write ∧ t.read = s.read ∧ t.dmaCnt = s.dmaCnt ∧
        t.fullCnt = s.fullCnt ∧ t.storage = s.storage := by
  cases h with
  | faulted _ _ he => exact .inl (he ▸ ⟨rfl, rfl⟩)
  | violated hf _ _ he => exact .inr (he ▸ ⟨hf, rfl, rfl, rfl, rfl, rfl, rfl⟩)
  | completed _ hc => exact .inl hc.fault

/-- A command whose own rule does not run moves no cursor and stores nothing. -/
theorem Ran.kept_or_completed (h : Ran i s t) :
    (t.write = s.write ∧ t.read = s.read ∧ t.dmaCnt = s.dmaCnt ∧ t.storage = s.storage) ∨
      (s.Ready i ∨ i = .status) ∧ Completes i s t := by
  cases h with
  | faulted _ _ he => exact .inl (he ▸ ⟨rfl, rfl, rfl, rfl⟩)
  | violated _ _ _ he => exact .inl (he ▸ ⟨rfl, rfl, rfl, rfl⟩)
  | completed hr hc => exact .inr ⟨hr.imp_right And.left, hc⟩

/-- WRITE leaves `dma_cnt` alone (rule R177). -/
theorem Ran.write_dmaCnt {n : OperandWord} (h : Ran (.write n) s t) : t.dmaCnt = s.dmaCnt := by
  obtain ⟨-, -, hdma, -⟩ | ⟨-, hc⟩ := h.kept_or_completed
  · exact hdma
  · cases hc with
    | writeRejected => rfl
    | write => simp [State.writePayload]

/-- A WRITE that Decode does not let through, or of SIZE bytes or more, stores nothing (rule R136). -/
theorem Ran.write_storage {n : OperandWord} (h : Ran (.write n) s t)
    (hn : ¬ s.Ready (.write n) ∨ s.cfg.size ≤ n.toNat) : t.storage = s.storage := by
  obtain ⟨-, -, -, hmem⟩ | ⟨hr, hc⟩ := h.kept_or_completed
  · exact hmem
  · cases hc with
    | writeRejected => rfl
    | write _ _ _ hlt _ =>
      have hready : s.Ready (.write n) := hr.resolve_right (by simp)
      exact absurd hlt (Nat.not_lt.2 (hn.resolve_left (not_not.2 hready)))

theorem Ran.write_load_other {n : OperandWord} {a : Nat} (h : Ran (.write n) s t) (hwf : Memory.wf s.storage)
    (ha : ¬ s.OffsetWritten n.toNat a) : t.load a = s.load a := by
  obtain ⟨-, -, -, hmem⟩ | ⟨-, hc⟩ := h.kept_or_completed
  · exact State.load_congr hmem a
  · cases hc with
    | writeRejected => rfl
    | write _ _ _ _ hp => exact State.load_writePayload_other hwf hp ha

/-- DMA_ADVANCE touches no byte (rule R170). -/
theorem Ran.dmaAdvance_storage {v : OperandWord} (h : Ran (.dmaAdvance v) s t) : t.storage = s.storage := by
  obtain ⟨-, -, -, hmem⟩ | ⟨-, hc⟩ := h.kept_or_completed
  · exact hmem
  · cases hc with
    | dmaAdvance => simp [State.reconcile]

end

/-- Settles O43: the interface, the response and the fault record by the cases of an instruction, the rest for WRITE and
for DMA_ADVANCE apart. -/
theorem producerFrame : Obligations.ProducerFrame := by
  intro i s t hi hop he
  have hran : Ran i s t := (exec_next he).2
  obtain ⟨-, -, -, -, -, hwf, -⟩ := hi
  obtain ⟨hcfg, hqP, hqC, harr, hsch⟩ := hran.sameInterface
  refine ⟨hcfg, hqP, hqC, harr, hsch, hran.answers_append, ?_, ?_, ?_, ?_, hran.fault_kept_or_entered⟩
  · intro hw
    cases i with
    | write => exact hran.write_dmaCnt
    | _ => cases hw
  · rintro n rfl a ha
    exact hran.write_load_other hwf ha
  · rintro n rfl hn a
    exact State.load_congr (hran.write_storage hn) a
  · intro hd a
    cases i with
    | dmaAdvance => exact State.load_congr hran.dmaAdvance_storage a
    | _ => cases hd

/-! ### The cursors as unbounded totals (rules R24, R25, R31, R42) -/

/-- A wrapping difference that is not negative. -/
theorem wrapSub_of_le {M a b : Nat} (h : b ≤ a) : wrapSub M a b = (a - b) % M := by
  unfold wrapSub
  rw [← Nat.cast_sub h, ← Int.natCast_mod, Int.toNat_natCast]

/-- The cursors hold, modulo 2^W, a total `w` of bytes committed and a total `r` of bytes consumed or dropped that is at
most MASK behind. -/
structure State.HoldsTotals (s : State) (w r : Nat) : Prop where
  write : s.write = w % s.cfg.cursorModulus
  read  : s.read = r % s.cfg.cursorModulus
  le    : r ≤ w
  near  : w - r ≤ s.cfg.mask

section
variable {s t : State} {w r m : Nat}

theorem State.HoldsTotals.congr (h : s.HoldsTotals w r) (hc : t.cfg = s.cfg) (hw : t.write = s.write)
    (hr : t.read = s.read) : t.HoldsTotals w r :=
  ⟨by rw [hw, hc, h.write], by rw [hr, hc, h.read], h.le, by rw [hc]; exact h.near⟩

/-- The count is the difference of the totals. -/
theorem State.HoldsTotals.count (h : s.HoldsTotals w r) (hv : s.cfg.Valid) : s.count = w - r := by
  have hnear := h.near
  have hM := Config.two_size_le hv
  have hsize := s.cfg.size_eq
  have hdist : s.cursorSub s.write s.read = w - r := by
    rw [State.cursorSub, h.write, h.read, wrapSub_mod_mod, wrapSub_of_le h.le]
    exact Nat.mod_eq_of_lt (by omega)
  rw [State.count_eq_cursorSub (by omega), hdist]

/-- Moving `read` within the unread data adds to the total of bytes consumed. -/
theorem State.HoldsTotals.advanceRead (h : s.HoldsTotals w r) (hv : s.cfg.Valid) (hm : m ≤ s.count) :
    (s.advanceRead m).HoldsTotals w (r + m) := by
  have hle := h.le
  have hnear := h.near
  rw [h.count hv] at hm
  refine ⟨h.write, ?_, by omega, show w - (r + m) ≤ s.cfg.mask by omega⟩
  rw [State.advanceRead_read, h.read]
  exact Nat.mod_add_mod r _ m

/-- A commit of `m` bytes adds `m` to the total of bytes committed; where that would leave more than MASK bytes unread,
the total of bytes dropped catches up to MASK behind (rule R131). -/
theorem State.HoldsTotals.commit (h : s.HoldsTotals w r) (hv : s.cfg.Valid) :
    (s.commit m).HoldsTotals (w + m) (max r (w + m - s.cfg.mask)) := by
  have hle := h.le
  have hnear := h.near
  have hM := Config.two_size_le hv
  have hsize := s.cfg.size_eq
  have hwrite : s.cursorAdd s.write m = (w + m) % s.cfg.cursorModulus := by
    rw [h.write]
    exact Nat.mod_add_mod w _ m
  refine ⟨?_, ?_, by omega, ?_⟩
  · rw [State.commit_write, State.commit_cfg, hwrite]
  · rw [State.commit_read, State.commit_cfg, State.free, h.count hv, hwrite]
    split
    · have hmask : s.cfg.mask % s.cfg.cursorModulus = s.cfg.mask := Nat.mod_eq_of_lt (by omega)
      have hback : s.cursorSub ((w + m) % s.cfg.cursorModulus) s.cfg.mask
          = (w + m - s.cfg.mask) % s.cfg.cursorModulus := by
        conv_lhs => rw [State.cursorSub, ← hmask, wrapSub_mod_mod]
        exact wrapSub_of_le (by omega)
      rw [hback, max_eq_right (by omega)]
    · rw [max_eq_left (by omega), h.read]
  · rw [State.commit_cfg]
    omega

/-- The cursors of `t` hold totals that are no less than `w` and `r`, the first by at most MASK. -/
def State.TotalsAdvance (w r : Nat) (t : State) : Prop :=
  ∃ w' r', w ≤ w' ∧ w' ≤ w + t.cfg.mask ∧ r ≤ r' ∧ t.HoldsTotals w' r'

theorem State.HoldsTotals.totalsAdvance (h : s.HoldsTotals w r) : s.TotalsAdvance w r :=
  ⟨w, r, le_rfl, Nat.le_add_right _ _, le_rfl, h⟩

theorem State.HoldsTotals.commit_totalsAdvance (h : s.HoldsTotals w r) (hv : s.cfg.Valid) (hm : m ≤ s.cfg.mask) :
    (s.commit m).TotalsAdvance w r :=
  ⟨_, _, Nat.le_add_right w m, by rw [State.commit_cfg]; omega, le_max_left _ _, h.commit hv⟩

/-- A response moves no cursor. -/
theorem State.TotalsAdvance.answer (h : s.TotalsAdvance w r) (res : ResultWord) (d : List Byte) :
    (s.answer res d).TotalsAdvance w r := by
  obtain ⟨w', r', hw, hbound, hr, ht⟩ := h
  exact ⟨w', r', hw, hbound, hr, ht.congr rfl rfl rfl⟩

/-- Every command's own rule but INIT's: the producer's commands commit, the others move `read` within the unread
data. -/
theorem Completes.totalsAdvance {i : Instr} (hc : Completes i s t) (hi : s.Inv) (hinit : i.opcode ≠ .init)
    (h : s.HoldsTotals w r) : t.TotalsAdvance w r := by
  have hv := hi.1
  by_cases hkind : i.opcode = .write ∨ i.opcode = .dmaAdvance
  · cases hc with
    | writeRejected => exact State.HoldsTotals.totalsAdvance (h.congr rfl rfl rfl)
    | write _ n _ hlt _ =>
      have hrun : (s.storeRunFrom s.write 0 s.arrival.payload).HoldsTotals w r := h.congr (by simp) (by simp) (by simp)
      have hmask : n.toNat ≤ s.cfg.mask := Nat.le_sub_one_of_lt hlt
      exact (hrun.commit_totalsAdvance (by simpa using hv) (by simpa using hmask)).answer _ _
    | dmaAdvance _ v =>
      have hset : ({ s with dmaCnt := producedOf s.cfg.size v.toInt } : State).HoldsTotals w r := h.congr rfl rfl rfl
      have hmask : wrapSub s.cfg.size (producedOf s.cfg.size v.toInt) s.dmaCnt ≤ s.cfg.mask :=
        Nat.le_sub_one_of_lt (wrapSub_size_lt s.cfg _ _)
      exact (hset.commit_totalsAdvance hv hmask).answer _ _
    | _ => simp [Instr.opcode] at hkind
  · obtain ⟨hnw, hnd⟩ := not_or.1 hkind
    obtain ⟨hwrite, -, -, -, m, hm, hread, -⟩ := hc.within_unread hi ⟨hinit, hnw, hnd⟩
    obtain ⟨hcfg, -⟩ := hc.sameInterface
    have ht : t.HoldsTotals w (r + m) := (h.advanceRead hv hm).congr hcfg hwrite hread
    exact ⟨w, r + m, le_rfl, Nat.le_add_right _ _, Nat.le_add_right _ _, ht⟩

theorem Ran.totalsAdvance {i : Instr} (hran : Ran i s t) (hi : s.Inv) (hinit : i.opcode ≠ .init)
    (h : s.HoldsTotals w r) : t.TotalsAdvance w r := by
  obtain ⟨hwrite, hread, -, -⟩ | ⟨-, hc⟩ := hran.kept_or_completed
  · exact (h.congr hran.cfg_eq hwrite hread).totalsAdvance
  · exact hc.totalsAdvance hi hinit h

end

/-- Settles O51: a commit adds to `w` and may raise `r`, every other move of a cursor adds to `r` alone. -/
theorem cursorsNeverGoBack : Obligations.CursorsNeverGoBack := by
  intro i s t w r hi hinit he hw hr hle hnear
  obtain ⟨hv, hran⟩ := exec_next he
  have hcfg := hran.cfg_eq
  obtain ⟨w', r', hww', hbound, hrr', ht⟩ := hran.totalsAdvance hi hinit ⟨hw.symm, hr.symm, hle, hnear⟩
  refine ⟨w', r', hww', hcfg ▸ hbound, hrr', ht.le, hcfg ▸ ht.near, hcfg ▸ ht.write, hcfg ▸ ht.read, ?_⟩
  exact ht.count (hcfg ▸ hv)

/-! ### Just after reset (rule R41) -/

theorem step_reset {s : State} (hv : s.cfg.Valid) {es : List Event} (hs : s.schedule = .reset :: es) :
    step s = .next ({ s with schedule := es } : State).hardReset := by
  unfold step runSchedule
  rw [if_neg (not_not.2 hv), hs]
  rfl

theorem exec_isEmpty {s : State} (hr : s.Ready .isEmpty) :
    exec .isEmpty s = .next (s.answer (resultOfBool s.isEmpty) []) :=
  accept_of_ready hr fun u => .next (u.answer (resultOfBool u.isEmpty) [])

theorem exec_isFull {s : State} (hr : s.Ready .isFull) :
    exec .isFull s = .next (s.answer (resultOfBool s.isFull) []) :=
  accept_of_ready hr fun u => .next (u.answer (resultOfBool u.isFull) [])

section
variable {s : State}

/-- Equal cursors: nothing is unread. -/
theorem State.count_of_write_eq_read (h : s.write = s.read) : s.count = 0 := by
  simp [State.count, State.cursorSub, wrapSub, State.offset, h]

theorem State.isEmpty_of_write_eq_read (h : s.write = s.read) : s.isEmpty = true := by
  simp [State.isEmpty, State.pw, State.pr, h]

/-- With SIZE at least 2 the slot after `pw` is another one. -/
theorem State.isFull_of_write_eq_read (hv : s.cfg.Valid) (hlt : s.write < s.cfg.cursorModulus) (h : s.write = s.read) :
    s.isFull = false := by
  have hsize := Config.size_ge_two hv
  have hzero : s.cursorAdd s.write 0 = s.write := wrapAdd_zero hlt
  have hne : s.offset (s.cursorAdd s.write 1) ≠ s.offset (s.cursorAdd s.write 0) := fun he =>
    absurd (State.offset_cursorAdd_inj hv he (by omega) (by omega)) one_ne_zero
  simpa [State.isFull, State.pr, ← h, hzero] using hne

theorem exec_isEmpty_of_write_eq_read (hv : s.cfg.Valid) (hf : s.fault = false) (h : s.write = s.read) (p : Port) :
    exec .isEmpty (s.take p []) = .next ((s.take p []).answer 1 []) := by
  rw [exec_isEmpty (s := s.take p []) ⟨hv, hf, rfl, rfl⟩, State.isEmpty_of_write_eq_read (s := s.take p []) h]
  rfl

theorem exec_isFull_of_write_eq_read (hv : s.cfg.Valid) (hf : s.fault = false) (hlt : s.write < s.cfg.cursorModulus)
    (h : s.write = s.read) (p : Port) : exec .isFull (s.take p []) = .next ((s.take p []).answer 0 []) := by
  rw [exec_isFull (s := s.take p []) ⟨hv, hf, rfl, rfl⟩,
    State.isFull_of_write_eq_read (s := s.take p []) hv hlt h]
  rfl

end

/-- Settles O15: reset makes the cursors equal. -/
theorem resetLeavesEmptyBuffer : Obligations.ResetLeavesEmptyBuffer := by
  intro s es p hv hs
  let t : State := ({ s with schedule := es } : State).hardReset
  have hcount : t.count = 0 := State.count_of_write_eq_read rfl
  refine ⟨t, step_reset hv hs, hcount, congrArg (s.cfg.mask - ·) hcount, ?_, ?_⟩
  · exact exec_isEmpty_of_write_eq_read (s := t) hv rfl rfl p
  · exact exec_isFull_of_write_eq_read (s := t) hv rfl (Config.cursorModulus_pos s.cfg) rfl p

end Sys2Proof.Machine

/-! # Scope: memory

The DMA peripheral's store, the frame of the queries, and the bytes a disciplined peripheral hands over: a stretch
between two samples acts like one run of stores from `write` and one advance of `read` (`State.Stretch`), so that the
sample commits what a WRITE of the same bytes would. -/

namespace Sys2Proof.Machine

/-! ### The DMA peripheral's store (rule R60) -/

theorem step_dmaStore {s : State} (hv : s.cfg.Valid) {off : Nat} {b : Byte} {es : List Event}
    (hs : s.schedule = .dmaStore off b :: es) : step s = dmaStoreEvent off b { s with schedule := es } := by
  unfold step runSchedule
  rw [if_neg (not_not.2 hv), hs]
  rfl

/-- Settles O19: the step is a `State.store`, whose reads `State.load_store` gives. -/
theorem dmaStoreEffect : Obligations.DmaStoreEffect := by
  intro s off b es hv hwf hs
  have hstep : step s = dmaStoreEvent off b { s with schedule := es } := step_dmaStore hv hs
  have hload := State.load_store (s := { s with schedule := es }) hwf off b
  constructor
  · intro ho
    refine ⟨({ s with schedule := es } : State).store off b, hstep.trans (if_pos ho), rfl, ?_, ?_⟩
    · exact (hload off).trans (if_pos rfl)
    · exact fun a ha => (hload a).trans (if_neg ha)
  · exact fun ho => hstep.trans (if_neg (Nat.not_lt.2 ho))

/-! ### The frame of the queries (rule R57) -/

/-- The eight query commands (41_queries.md). -/
abbrev IsQuery (i : Instr) : Prop :=
  i ∈ [.isEmpty, .isFull, .dataCount, .emptyCount, .contigDataCount, .contigEmptyCount, .fullCount, .status]

section
variable {i : Instr} {s t : State}

/-- A query's own rule only answers, and nothing it computes its result from is touched by an answer. -/
theorem Completes.query_repeats (h : Completes i s t) (hq : IsQuery i) :
    ∃ r, t = s.answer r [] ∧ ∀ u, Completes i t u → u = t.answer r [] := by
  cases h with
  | init | writeRejected | write | dmaAdvance | read | readUntil | syncToByte => simp at hq
  | _ => exact ⟨_, rfl, fun u hu => by cases hu; rfl⟩

/-- A command that arrives while FAULT is 1 answers `ERR = 1` and changes nothing (rule R206). -/
theorem exec_faulted (hv : s.cfg.Valid) (hf : s.fault = true) (hx : ¬(i = .status ∧ s.arrival.payload = [])) :
    exec i s = .next s.answerErr := by
  obtain ⟨u, hu⟩ := exec_answers_next hv i
  cases (exec_next hu).2 with
  | faulted _ _ he => rw [hu, he]
  | violated hg => simp [hf] at hg
  | completed hr =>
    obtain ⟨-, hg, -⟩ | ⟨hi, -, hp⟩ := hr
    · simp [hf] at hg
    · exact absurd ⟨hi, hp⟩ hx

/-- A query that Decode lets through, or STATUS while FAULT is 1, runs its own rule. -/
theorem exec_query (hv : s.cfg.Valid) (hq : IsQuery i)
    (hr : s.Ready i ∨ i = .status ∧ s.fault = true ∧ s.arrival.payload = []) :
    ∃ u, exec i s = .next u ∧ Completes i s u := by
  obtain ⟨u, hu⟩ := exec_answers_next hv i
  refine ⟨u, hu, ?_⟩
  cases (exec_next hu).2 with
  | completed _ hc => exact hc
  | faulted hf hx =>
    obtain ⟨-, hg, -⟩ | ⟨hi, -, hp⟩ := hr
    · simp [hf] at hg
    · exact absurd ⟨hi, hp⟩ hx
  | violated hf c hc =>
    obtain hr | ⟨-, hg, -⟩ := hr
    · exact absurd hc (Violates.not_of_ready hr (by rintro n rfl; simp at hq) (by rintro n rfl; simp at hq)
        (by rintro n d rfl; simp at hq) c)
    · simp [hf] at hg

end

/-- Settles O36: a query that is refused while FAULT is 1 is refused again, and one whose own rule ran runs it again. -/
theorem queriesHaveNoSideEffect : Obligations.QueriesHaveNoSideEffect := by
  intro i s t hq he hfault
  obtain ⟨hv, hran⟩ := exec_next he
  cases hran with
  | faulted hf hx ht =>
    subst ht
    refine ⟨_, rfl, (exec_faulted (s := s.answerErr) hv hf hx).trans ?_⟩
    simp [State.answerErr]
  | violated hf c _ ht =>
    subst ht
    simp [hf] at hfault
  | completed hr hc =>
    obtain ⟨r, rfl, hrepeat⟩ := hc.query_repeats hq
    obtain ⟨u, hu, hcu⟩ := exec_query (s := s.answer r []) hv hq hr
    refine ⟨_, rfl, ?_⟩
    rw [hu, hrepeat u hcu]
    simp [State.answer]

/-! ### What the consumer takes out -/

section
variable {i : Instr} {s t : State}

/-- The DATA of the response that READ and READ_UNTIL add. -/
theorem State.data_consume (s : State) (d : List Byte) :
    ((s.consume d).answers.getLast?.map Answer.data).getD [] = d := by
  simp [State.consume]

/-- Consuming the oldest unread bytes takes the count down by their number. -/
theorem State.Inv.consume_take (h : s.Inv) (k : Nat) :
    s.unread.take k = s.unread.take (s.count - (s.consume (s.unread.take k)).count) := by
  have hlen : (s.unread.take k).length = min k s.count := by simp
  have hcount : (s.consume (s.unread.take k)).count = s.count - min k s.count := by
    rw [← hlen]
    exact h.advanceRead_count (by simp)
  rw [hcount, Nat.sub_sub_self (Nat.min_le_right _ _), List.take_eq_take_iff]
  simp

/-- The bytes a query or consumer command takes out are the oldest unread ones, as many as the count goes down by. -/
theorem Completes.consumedBy_eq_take (h : Completes i s t) (hi : s.Inv)
    (kind : i.opcode ≠ .init ∧ i.opcode ≠ .write ∧ i.opcode ≠ .dmaAdvance) :
    consumedBy i s t = s.unread.take (s.count - t.count) := by
  obtain ⟨hinit, hwrite, hdma⟩ := kind
  have scanned (n : Nat) : s.loadRun s.read (min n s.count) = s.unread.take (min n s.count) :=
    (State.take_loadRun s s.read (Nat.min_le_right n s.count)).symm
  cases h with
  | init => exact absurd rfl hinit
  | writeRejected | write => exact absurd rfl hwrite
  | dmaAdvance => exact absurd rfl hdma
  | read _ n =>
    rw [scanned]
    exact (s.data_consume _).trans (hi.consume_take _)
  | readUntil _ n d =>
    rw [scanned, emitUntil_eq_take, List.take_take]
    exact (s.data_consume _).trans (hi.consume_take _)
  | syncToByte => rfl
  | _ => exact (congrArg (s.unread.take ·) (Nat.sub_self s.count)).symm

end

/-! ### Stores and commits as byte runs -/

section
variable {s t : State}

/-- A store outside the unread offsets leaves the unread data. -/
theorem State.unread_store {off : Nat} (hwf : Memory.wf s.storage) (ho : ¬ s.OffsetUnread off) (b : Byte) :
    (s.store off b).unread = s.unread := by
  refine State.loadRun_congr fun j hj => ?_
  rw [State.load_store hwf]
  exact if_neg fun he => ho ⟨j, hj, he.symm⟩

/-- The free slots from `write` on are not unread. -/
theorem State.Inv.free_not_unread (h : s.Inv) {i : Nat} (hi : i < s.free) :
    ¬ s.OffsetUnread (s.offset (s.cursorAdd s.write i)) := by
  rintro ⟨j, hj, hoff⟩
  have hsize := s.cfg.size_eq
  unfold State.free at hi
  rw [h.cursorAdd_write] at hoff
  have := State.offset_cursorAdd_inj h.1 hoff (by omega) (by omega)
  omega

/-- The storage after a run of stores depends on the configuration and the storage alone. -/
theorem State.storeRunFrom_storage_congr (hc : s.cfg = t.cfg) (hm : s.storage = t.storage) (c i : Nat)
    (bs : List Byte) : (s.storeRunFrom c i bs).storage = (t.storeRunFrom c i bs).storage := by
  induction bs generalizing s t i with
  | nil => exact hm
  | cons b bs ih =>
    unfold State.storeRunFrom
    rw [State.offset_congr hc, State.cursorAdd_congr hc]
    exact ih (s := s.store _ b) (t := t.store _ b) hc (by simp [hm]) (i + 1)

/-- A commit moves `read` past the bytes that no longer fit (rule R131). -/
theorem State.Inv.commit_read_eq (h : s.Inv) (m : Nat) :
    (s.commit m).read = s.cursorAdd s.read (s.count + m - s.cfg.mask) := by
  have hcount := s.count_le_mask
  have hM := Config.two_size_le h.1
  have hsize := s.cfg.size_eq
  rw [State.commit_read, State.free]
  split
  · have hfwd : s.cursorAdd s.write m
        = s.cursorAdd (s.cursorAdd s.read (s.count + m - s.cfg.mask)) s.cfg.mask := by
      rw [h.cursorAdd_write, State.cursorAdd_cursorAdd]
      congr 1
      omega
    rw [hfwd, State.cursorSub_cursorAdd (State.cursorAdd_lt s _ _) (by omega)]
  · rw [Nat.sub_eq_zero_of_le (by omega), h.cursorAdd_zero]

/-- The commit of `m` bytes makes the `m` bytes from `write` on unread, and keeps the newest MASK (rule R131). -/
theorem State.Inv.commit_unread (h : s.Inv) {m : Nat} (hm : m ≤ s.cfg.mask) :
    (s.commit m).unread = lastBytes s.cfg.mask (s.loadRun s.read (s.count + m)) := by
  have hcount : (s.commit m).count = s.count + m - (s.count + m - s.cfg.mask) := by
    have ⟨hv, hw, hr, _, hdist, _⟩ := h
    have hd := State.commit_distance hv hw hr hdist hm
    rw [(h.commit hm).count_eq, State.cursorSub_congr (State.commit_cfg s m), hd]
    omega
  rw [lastBytes, State.length_loadRun, State.drop_loadRun h.1, State.unread, hcount, h.commit_read_eq]
  refine State.loadRun_congr fun i _ => ?_
  rw [State.offset_congr (State.commit_cfg s m), State.cursorAdd_congr (State.commit_cfg s m)]
  exact State.load_congr (State.commit_storage s m) _

/-- After a run of stores from `write` the bytes from `read` on, but for the oldest that a commit drops, are the old
unread ones and then those stored: a store that wraps around to an unread offset hits one of the bytes dropped. -/
theorem State.Inv.load_storeRun (h : s.Inv) {bs : List Byte} (hl : bs.length ≤ s.cfg.mask) {x : Nat}
    (hx : x < (s.unread ++ bs).length) (hnew : s.count + bs.length ≤ x + s.cfg.mask) :
    (s.storeRunFrom s.write 0 bs).load (s.offset (s.cursorAdd s.read x)) = (s.unread ++ bs)[x] := by
  have ⟨hv, _, _, _, _, hwf, _⟩ := h
  have hsize := s.cfg.size_eq
  rw [List.length_append, State.length_unread] at hx
  by_cases hold : x < s.count
  · rw [List.getElem_append_left (by simpa using hold), State.getElem_unread]
    refine State.load_storeRunFrom_other s.write 0 bs hwf _ fun k hk hoff => ?_
    rw [h.cursorAdd_write] at hoff
    have := State.offset_cursorAdd_inj hv hoff (by omega) (by omega)
    omega
  · have hat := State.load_storeRunFrom hv s.write 0 bs hwf (by omega) (x - s.count) (by omega)
    rw [h.cursorAdd_write, Nat.zero_add, Nat.add_sub_cancel' (Nat.not_lt.1 hold)] at hat
    rw [List.getElem_append_right (by simpa using hold)]
    simpa using hat

theorem State.Inv.lastBytes_storeRun (h : s.Inv) {bs : List Byte} (hl : bs.length ≤ s.cfg.mask) :
    lastBytes s.cfg.mask ((s.storeRunFrom s.write 0 bs).loadRun s.read (s.count + bs.length))
      = lastBytes s.cfg.mask (s.unread ++ bs) := by
  have hcfg := State.storeRunFrom_cfg s s.write 0 bs
  refine List.ext_getElem (by simp [lastBytes]) fun j hj _ => ?_
  simp only [lastBytes, List.length_drop, State.length_loadRun] at hj
  simp only [lastBytes, List.getElem_drop, State.getElem_loadRun, State.length_loadRun, List.length_append,
    State.length_unread, State.offset_congr hcfg, State.cursorAdd_congr hcfg]
  exact h.load_storeRun hl (by simp; omega) (by omega)

/-- Bytes stored from `write` and committed: the unread data is the newest MASK of the old unread data followed by
them (rule R138). -/
theorem State.Inv.storeRun_commit_unread (h : s.Inv) {bs : List Byte} (hl : bs.length ≤ s.cfg.mask) :
    ((s.storeRunFrom s.write 0 bs).commit bs.length).unread = lastBytes s.cfg.mask (s.unread ++ bs) := by
  have hcount : (s.storeRunFrom s.write 0 bs).count = s.count := State.count_congr (by simp) (by simp) (by simp)
  rw [(h.storeRunFrom s.write 0 bs).commit_unread (by simpa using hl), hcount, State.storeRunFrom_cfg,
    State.storeRunFrom_read, h.lastBytes_storeRun hl]

/-- What a commit leaves unread depends on the configuration, the cursors and storage alone. -/
theorem State.commit_unread_congr (hc : s.cfg = t.cfg) (hw : s.write = t.write) (hr : s.read = t.read)
    (hm : s.storage = t.storage) (m : Nat) : (s.commit m).unread = (t.commit m).unread := by
  have hfree : s.free = t.free := by rw [State.free, State.free, hc, State.count_congr hc hw hr]
  refine State.unread_congr (by simp [hc]) ?_ ?_ (by simp [hm])
  · rw [State.commit_write, State.commit_write, hw, State.cursorAdd_congr hc]
  · rw [State.commit_read, State.commit_read, hfree, hw, hr, hc, State.cursorAdd_congr hc, State.cursorSub_congr hc]

/-- DMA_ADVANCE with the sample after `T < SIZE` more bytes commits `T` bytes (rules R170 to R172). -/
theorem State.reconcile_positions {J T : Nat} (hT : T < s.cfg.size) (hd : s.dmaCnt = J % s.cfg.size) :
    s.reconcile ((J + T) % s.cfg.size) = ({ s with dmaCnt := (J + T) % s.cfg.size } : State).commit T := by
  rw [State.reconcile, hd, wrapSub_positions, Nat.mod_eq_of_lt hT]

end

/-! ### A stretch between two samples -/

/-- What a stretch from `s` to `u` comes to in which the peripheral stores `bs`, from `i` bytes past `write` on, and
the bytes `c` are taken out. Only while the stores stay in the free slots are those the bytes unread at the start. -/
structure State.Stretch (s : State) (i : Nat) (bs c : List Byte) (u : State) : Prop where
  fault   : u.fault = false
  cfg     : u.cfg = s.cfg
  write   : u.write = s.write
  dmaCnt  : u.dmaCnt = s.dmaCnt
  taken   : c.length ≤ s.count
  read    : u.read = s.cursorAdd s.read c.length
  storage : u.storage = (s.storeRunFrom s.write i bs).storage
  inOrder : i + bs.length ≤ s.free → s.unread = c ++ u.unread

section
variable {s s₁ u : State} {i : Nat} {bs c : List Byte}

theorem State.Inv.stretch_done (h : s.Inv) (hf : s.fault = false) (i : Nat) : s.Stretch i [] [] s :=
  ⟨hf, rfl, rfl, rfl, Nat.zero_le _, h.cursorAdd_zero.symm, rfl, fun _ => rfl⟩

/-- The next store first. -/
theorem State.Inv.stretch_store (h : s.Inv) (b : Byte)
    (rest : (s.store (s.offset (s.cursorAdd s.write i)) b).Stretch (i + 1) bs c u) : s.Stretch i (b :: bs) c u := by
  have ⟨_, _, _, _, _, hwf, _⟩ := h
  refine { rest with inOrder := fun hfits => ?_ }
  rw [List.length_cons] at hfits
  have hi : i < s.free := by omega
  have hrest : i + 1 + bs.length ≤ s.free := by omega
  rw [← State.unread_store hwf (h.free_not_unread hi) b]
  exact rest.inOrder hrest

/-- A query or consumer command first. -/
theorem Completes.stretch {a : Instr} (h : Completes a s s₁) (hi : s.Inv)
    (kind : a.opcode ≠ .init ∧ a.opcode ≠ .write ∧ a.opcode ≠ .dmaAdvance) (rest : s₁.Stretch i bs c u) :
    s.Stretch i bs (consumedBy a s s₁ ++ c) u := by
  obtain ⟨hcfg, -⟩ := h.sameInterface
  obtain ⟨hwrite, hdma, -, hmem, m, hm, hread, hcount⟩ := h.within_unread hi kind
  have hconsumed : consumedBy a s s₁ = s.unread.take m := by
    rw [h.consumedBy_eq_take hi kind, hcount, Nat.sub_sub_self hm]
  have hlen : (consumedBy a s s₁).length = m := by simp [hconsumed, hm]
  have hunread : s₁.unread = s.unread.drop m :=
    (State.unread_congr (t := s.advanceRead m) hcfg hwrite hread hmem).trans (hi.advanceRead_unread hm)
  have htaken := rest.taken
  refine ⟨rest.fault, rest.cfg.trans hcfg, rest.write.trans hwrite, rest.dmaCnt.trans hdma, ?_, ?_, ?_, ?_⟩
  · rw [List.length_append, hlen]
    omega
  · rw [rest.read, hread, State.cursorAdd_congr hcfg, State.cursorAdd_cursorAdd, List.length_append, hlen]
  · rw [rest.storage, hwrite, State.storeRunFrom_storage_congr hcfg hmem]
  · intro hfits
    have hfree : s.free ≤ s₁.free := by
      unfold State.free
      rw [hcfg]
      omega
    rw [List.append_assoc, ← rest.inOrder (hfits.trans hfree), hconsumed, hunread, List.take_append_drop]

/-- Every stretch that keeps the peripheral's discipline is such a stretch (rules R61, R236). -/
theorem DisciplinedRun.stretch {J : Nat} (run : DisciplinedRun s J bs c u) (hi : s.Inv) (hf : s.fault = false)
    (hJ : (s.write + i) % s.cfg.size = J % s.cfg.size) : s.Stretch i bs c u := by
  induction run generalizing i with
  | done s J => exact hi.stretch_done hf i
  | @store s u J bs c b _ ih =>
    have hoff : s.offset (s.cursorAdd s.write i) = J % s.cfg.size := (State.offset_cursorAdd hi.1 _ _).trans hJ
    have hnext : (s.write + (i + 1)) % s.cfg.size = (J + 1) % s.cfg.size := Nat.ModEq.add_right 1 hJ
    refine hi.stretch_store b ?_
    rw [hoff]
    exact ih (hi.store (Nat.mod_lt _ s.cfg.size_pos) b) hf hnext
  | command kind runs good _ ih =>
    have hran := (exec_next runs).2
    obtain ⟨-, hc⟩ := hran.completed_of_good hf good
    obtain ⟨hwrite, -⟩ := hc.within_unread hi kind
    exact hc.stretch hi kind (ih (hc.keeps_inv hi) good (by rwa [hwrite, hran.cfg_eq]))
  | @arrive s _ _ bs _ p payload _ ih =>
    have rest := ih (hi.take p payload) hf hJ
    have hmem := State.storeRunFrom_storage_congr (s := s.take p payload) (t := s) rfl rfl s.write i bs
    exact { rest with storage := rest.storage.trans hmem }

/-- Committing after a stretch the bytes it stored: what was not taken out, followed by them, as far as it fits. -/
theorem State.Stretch.commit_unread (h : s.Stretch 0 bs c u) (hi : s.Inv) (hl : bs.length ≤ s.cfg.mask) :
    (u.commit bs.length).unread = lastBytes s.cfg.mask ((s.unread ++ bs).drop c.length) := by
  let p := s.advanceRead c.length
  have htaken : c.length ≤ s.unread.length := by simpa using h.taken
  have hmem : u.storage = (p.storeRunFrom s.write 0 bs).storage :=
    h.storage.trans (State.storeRunFrom_storage_congr (s := s) (t := p) rfl rfl _ _ _)
  rw [State.commit_unread_congr (t := p.storeRunFrom s.write 0 bs) (by simpa [p] using h.cfg)
      (by simpa [p] using h.write) (by simpa [p] using h.read) hmem]
  rw [List.drop_append_of_le_length htaken, ← hi.advanceRead_unread h.taken]
  exact (hi.advanceRead h.taken).storeRun_commit_unread hl

end

/-! ### The last bytes of a list -/

theorem lastBytes_of_length_le {k : Nat} {l : List Byte} (h : l.length ≤ k) : lastBytes k l = l := by
  rw [lastBytes, Nat.sub_eq_zero_of_le h, List.drop_zero]

/-- The last bytes of what is left of a list are the last bytes of the list, as many as are left. -/
theorem lastBytes_drop (k n : Nat) (l : List Byte) : lastBytes k (l.drop n) = lastBytes (min (l.length - n) k) l := by
  rw [lastBytes, lastBytes, List.drop_drop, List.length_drop]
  by_cases h : n ≤ l.length
  · congr 1
    omega
  · rw [List.drop_eq_nil_of_le (by omega), List.drop_eq_nil_of_le (by omega)]

/-! ### The sample after a stretch -/

theorem State.dmaAligned_zero {s : State} (hw : s.write = 0) (hd : s.dmaCnt = 0) : s.DmaAligned 0 := by
  simp [State.DmaAligned, State.pw, State.offset, hw, hd]

section
variable {s u : State} {J T : Nat} {bs c : List Byte}

/-- A commit of the bytes the sample accounts for moves `pw` to where `dma_cnt` now is (rule R63). -/
theorem State.DmaAligned.reconcile (h : s.DmaAligned J) (hv : s.cfg.Valid) (hT : T < s.cfg.size) :
    (s.reconcile ((J + T) % s.cfg.size)).DmaAligned (J + T) := by
  obtain ⟨hpw, hdma⟩ := h
  rw [State.reconcile_positions hT hdma]
  constructor
  · rw [State.pw, State.commit_write, State.commit_cfg, State.offset_congr (State.commit_cfg _ T)]
    show s.offset (s.cursorAdd s.write T) = (J + T) % s.cfg.size
    rw [State.offset_cursorAdd_offset hv, ← State.pw, hpw, Nat.mod_add_mod]
  · rw [State.commit_dmaCnt, State.commit_cfg]

/-- A stretch moves neither `write` nor `dma_cnt`. -/
theorem State.Stretch.dmaAligned (h : s.Stretch 0 bs c u) (hJ : s.DmaAligned J) : u.DmaAligned J := by
  rw [State.DmaAligned, State.pw, h.write, h.dmaCnt, h.cfg, State.offset_congr h.cfg]
  exact hJ

/-- The sample after a stretch commits exactly the bytes it stored. -/
theorem State.Stretch.reconcile_unread (h : s.Stretch 0 bs c u) (hi : s.Inv) (hJ : s.DmaAligned J)
    (hl : bs.length < s.cfg.size) :
    (u.reconcile ((J + bs.length) % u.cfg.size)).unread = lastBytes s.cfg.mask ((s.unread ++ bs).drop c.length) := by
  obtain ⟨-, hdma⟩ := h.dmaAligned hJ
  rw [State.reconcile_positions (h.cfg ▸ hl) hdma, ← h.commit_unread hi (Nat.le_sub_one_of_lt hl)]
  apply State.commit_unread_congr <;> rfl

/-- The command of the sample after a stretch. -/
theorem State.Stretch.exec_sample (h : s.Stretch 0 bs c u) (hv : s.cfg.Valid) {v : OperandWord}
    (hport : u.arrival.port = .producer) (hpay : u.arrival.payload = [])
    (hreads : CountdownReads s.cfg.size J v.toInt) :
    exec (.dmaAdvance v) u = .next ((u.reconcile (J % u.cfg.size)).answer 0 []) := by
  have hlegal : (Instr.dmaAdvance v).opcode.legalOn u.arrival.port = true := by
    rw [hport]
    rfl
  have hlength : u.arrival.payload.length = (Instr.dmaAdvance v).payloadLength := by
    rw [hpay]
    rfl
  rw [exec_dmaAdvance ⟨h.cfg ▸ hv, h.fault, hlegal, hlength⟩,
    producedOf_of_reads u.cfg.size_pos (h.cfg ▸ hreads)]

end

/-- Settles O56: a disciplined run is a `State.Stretch` (`DisciplinedRun.stretch`), and the sample after it commits the
bytes it stored (`State.Stretch.reconcile_unread`). -/
theorem disciplinedDmaDeliversItsBytes : Obligations.DisciplinedDmaDeliversItsBytes := by
  refine ⟨fun s => State.dmaAligned_zero rfl rfl, ?_, ?_⟩
  · intro s t hf he ht
    obtain ⟨-, hc⟩ := (exec_next he).2.completed_of_good hf ht
    cases hc
    exact State.dmaAligned_zero rfl rfl
  · intro s u v J bs c hi hf hJ run hlt hport hpay hreads
    have hpw : (s.write + 0) % s.cfg.size = J % s.cfg.size := by
      rw [← hJ.1, State.pw, State.offset_eq_mod, Nat.add_zero]
    have hst : s.Stretch 0 bs c u := run.stretch hi hf hpw
    have htaken := hst.taken
    have hleft : ((s.unread ++ bs).drop c.length).length = s.count - c.length + bs.length := by simp; omega
    let t := (u.reconcile ((J + bs.length) % u.cfg.size)).answer 0 []
    have hunread : t.unread = lastBytes s.cfg.mask ((s.unread ++ bs).drop c.length) :=
      hst.reconcile_unread hi hJ hlt
    have haligned : t.DmaAligned (J + bs.length) :=
      (hst.dmaAligned hJ).reconcile (hst.cfg ▸ hi.1) (hst.cfg ▸ hlt)
    refine ⟨t, hst.exec_sample hi.1 hport hpay hreads, haligned, htaken, ?_, ?_⟩
    · rw [hunread, lastBytes_drop, ← List.length_drop, hleft]
    · intro hfree
      have hfits : s.count - c.length + bs.length ≤ s.cfg.mask := by
        have := s.count_le_mask
        unfold State.free at hfree
        omega
      have horder : s.unread = c ++ u.unread := hst.inOrder (by omega)
      rw [hunread, lastBytes_of_length_le (hleft ▸ hfits), horder, List.append_assoc, List.drop_left]

end Sys2Proof.Machine

/-! # Scope: the encoding and the command interface

The encoder and the decoder as inverse maps, with the match and mask table between them; the byte transport; and what
the decode procedure, the ports and the responses make of a command word. The key fact about the encoding is
`Opcode.and_maskWord_iff`: the bits outside an opcode's mask are exactly the operand fields it uses, so a word matches
if and only if it is the encoding of the operands it holds. -/

namespace Sys2Proof

/-! ### A word and its fields (rule R73) -/

@[simp] theorem fieldOpc_and (w m : CommandWord) : fieldOpc (w &&& m) = fieldOpc w &&& fieldOpc m :=
  BitVec.extractLsb'_and

@[simp] theorem fieldB_and (w m : CommandWord) : fieldB (w &&& m) = fieldB w &&& fieldB m := BitVec.extractLsb'_and

@[simp] theorem fieldN_and (w m : CommandWord) : fieldN (w &&& m) = fieldN w &&& fieldN m := BitVec.extractLsb'_and

/-- The reserved fields RSV0 = word[7:4] and RSV1 = word[31:16] (rule R73). -/
def reservedBits : CommandWord := 0x00000000FFFF00F0#64

theorem getLsbD_reservedBits : ∀ i < 64, reservedBits.getLsbD i = decide (4 ≤ i ∧ i < 8 ∨ 16 ≤ i ∧ i < 32) := by
  decide

/-- A word whose reserved fields are 0 is made of its three other fields. -/
theorem packFields_fields {w : CommandWord} (h : w &&& reservedBits = 0) :
    packFields (fieldN w) (fieldB w) (fieldOpc w) = w := by
  have hreserved (i : Nat) (hi : i < 64) (hr : 4 ≤ i ∧ i < 8 ∨ 16 ≤ i ∧ i < 32) : w.getLsbD i = false := by
    have hbit := congrArg (·.getLsbD i) h
    simpa [getLsbD_reservedBits i hi, hr] using hbit
  refine BitVec.eq_of_getLsbD_eq fun i hi => ?_
  rw [getLsbD_packFields]
  unfold fieldN fieldB fieldOpc
  simp only [BitVec.getLsbD_extractLsb']
  split_ifs with h4 h8 h16 h32
  · simp [h4]
  · exact (hreserved i hi (by omega)).symm
  · simp [show i - 8 < 8 by omega, show 8 + (i - 8) = i by omega]
  · exact (hreserved i hi (by omega)).symm
  · simp [show i - 32 < 32 by omega, show 32 + (i - 32) = i by omega]

/-! ### Match and mask (rule R78) -/

theorem encode_and_maskWord (i : Instr) : encode i &&& i.opcode.maskWord = i.opcode.matchWord := by
  cases i with
  | init => exact Laws.MatchMask.init
  | write n => exact Laws.MatchMask.write n
  | dmaAdvance v => exact Laws.MatchMask.dmaAdvance v
  | read n => exact Laws.MatchMask.read n
  | readUntil max delim => exact Laws.MatchMask.readUntil max delim
  | syncToByte marker => exact Laws.MatchMask.syncToByte marker
  | isEmpty => exact Laws.MatchMask.isEmpty
  | isFull => exact Laws.MatchMask.isFull
  | dataCount => exact Laws.MatchMask.dataCount
  | emptyCount => exact Laws.MatchMask.emptyCount
  | contigDataCount => exact Laws.MatchMask.contigDataCount
  | contigEmptyCount => exact Laws.MatchMask.contigEmptyCount
  | fullCount => exact Laws.MatchMask.fullCount
  | status => exact Laws.MatchMask.status

@[simp] theorem Opcode.opcode_instr (op : Opcode) (w : CommandWord) : (op.instr w).opcode = op := by cases op <;> rfl

@[simp] theorem fieldOpc_encode (i : Instr) : fieldOpc (encode i) = i.opcode.code := by
  cases i <;> exact fieldOpc_packFields _ _ _

/-- The operands of an instruction are read back from its encoding (rules R76, R77). -/
@[simp] theorem instr_encode (i : Instr) : i.opcode.instr (encode i) = i := by
  cases i <;> simp [Opcode.instr, Instr.opcode, encode]

/-- Every opcode's mask holds OPC and the reserved fields. -/
theorem Opcode.maskWord_fields (op : Opcode) :
    op.maskWord &&& reservedBits = reservedBits ∧ fieldOpc op.maskWord = BitVec.allOnes 4 := by
  cases op <;> decide

/-- The match value of an opcode is its OPC with every other field 0. -/
theorem Opcode.matchWord_fields (op : Opcode) :
    op.matchWord &&& reservedBits = 0 ∧ fieldN op.matchWord = 0 ∧ fieldB op.matchWord = 0 ∧
      fieldOpc op.matchWord = op.code := by
  cases op <;> decide

/-- The bits of B and N outside an opcode's mask are the operands it takes from a word (rules R77, R78). -/
theorem Opcode.encode_instr (op : Opcode) (w : CommandWord) :
    encode (op.instr w) =
      packFields (fieldN w &&& ~~~fieldN op.maskWord) (fieldB w &&& ~~~fieldB op.maskWord) op.code := by
  have hN : fieldN w &&& 0xFFFFFFFF#32 = fieldN w := BitVec.and_allOnes
  have hB : fieldB w &&& 0xFF#8 = fieldB w := BitVec.and_allOnes
  unfold fieldN fieldB at *
  cases op <;> simp [encode, Opcode.instr, Opcode.maskWord, fieldN, fieldB, hN, hB]

/-- A field that is 0 under a mask lies outside it. -/
theorem and_not_eq_self_of_and_eq_zero {n : Nat} {x m : BitVec n} (h : x &&& m = 0) : x &&& ~~~m = x := by
  ext i hi
  have hbit := congrArg (·.getLsbD i) h
  simp [BitVec.getLsbD_eq_getElem hi] at hbit ⊢
  exact hbit

/-- A word matches an opcode if and only if it is the encoding of the operands it holds. -/
theorem Opcode.and_maskWord_iff (op : Opcode) (w : CommandWord) :
    w &&& op.maskWord = op.matchWord ↔ encode (op.instr w) = w := by
  constructor
  · intro h
    obtain ⟨hmask, hmaskOpc⟩ := op.maskWord_fields
    obtain ⟨hmatch, hmatchN, hmatchB, hmatchOpc⟩ := op.matchWord_fields
    have hreserved : w &&& reservedBits = 0 := by rw [← hmask, ← BitVec.and_assoc, h, hmatch]
    have hN : fieldN w &&& fieldN op.maskWord = 0 := by rw [← fieldN_and, h, hmatchN]
    have hB : fieldB w &&& fieldB op.maskWord = 0 := by rw [← fieldB_and, h, hmatchB]
    have hOpc : fieldOpc w = op.code := by rw [← hmatchOpc, ← h, fieldOpc_and, hmaskOpc, BitVec.and_allOnes]
    rw [op.encode_instr, and_not_eq_self_of_and_eq_zero hN, and_not_eq_self_of_and_eq_zero hB, ← hOpc,
      packFields_fields hreserved]
  · intro h
    have hmatch := encode_and_maskWord (op.instr w)
    rwa [h, Opcode.opcode_instr] at hmatch

/-! ### The round trips -/

theorem decodeWord_of_ofCode {w : CommandWord} {op : Opcode} (h : Opcode.ofCode (fieldOpc w) = some op) :
    decodeWord w = if w &&& op.maskWord = op.matchWord then .ok (op.instr w) else .error (.reservedField op) := by
  simp only [decodeWord, h]

/-- Settles O1: the encoding has the instruction's OPC, matches its opcode, and holds its operands. -/
theorem decodeEncodeRoundTrip : Obligations.DecodeEncodeRoundTrip := by
  intro i
  have hopcode : Opcode.ofCode (fieldOpc (encode i)) = some i.opcode := by simp
  rw [decodeWord_of_ofCode hopcode, if_pos (encode_and_maskWord i), instr_encode]

/-- Settles O2: the decoder answers the operands of a word that matches, and such a word is their encoding. -/
theorem encodeDecodeRoundTrip : Obligations.EncodeDecodeRoundTrip := by
  intro w i h
  unfold decodeWord at h
  split at h
  · cases h
  · rename_i op _
    split at h
    · rename_i hmatch
      cases h
      exact (op.and_maskWord_iff w).1 hmatch
    · cases h

theorem decodeWord_eq_ok_iff {w : CommandWord} {i : Instr} : decodeWord w = .ok i ↔ encode i = w :=
  ⟨encodeDecodeRoundTrip w i, fun h => h ▸ decodeEncodeRoundTrip i⟩

/-! ### The opcode map, row by row -/

/-- A word matches an opcode exactly when it decodes to a command of that opcode. -/
theorem Opcode.and_maskWord_iff_decodes (op : Opcode) (w : CommandWord) :
    w &&& op.maskWord = op.matchWord ↔ ∃ i, decodeWord w = .ok i ∧ i.opcode = op := by
  constructor
  · intro h
    exact ⟨op.instr w, decodeWord_eq_ok_iff.2 ((op.and_maskWord_iff w).1 h), op.opcode_instr w⟩
  · rintro ⟨i, hd, rfl⟩
    have hw : encode i = w := decodeWord_eq_ok_iff.1 hd
    exact hw ▸ encode_and_maskWord i

/-- An opcode with its match value, its mask and whether P and C may issue it: its row in the tables of rules R70 and
R78. -/
def Opcode.tableRow (op : Opcode) : Opcode × CommandWord × CommandWord × Bool × Bool :=
  (op, op.matchWord, op.maskWord, op.legalOn .producer, op.legalOn .consumer)

/-- Settles O3: the rows written out are the rows of all opcodes (`Opcode.tableRow`), and
`Opcode.and_maskWord_iff_decodes` holds of each. -/
theorem matchMaskTableSelectsCommand : Obligations.MatchMaskTableSelectsCommand := by
  show ∀ row ∈ Machine.allOpcodes.map Opcode.tableRow, _
  rw [List.forall_mem_map]
  intro op _
  exact ⟨op.and_maskWord_iff_decodes, rfl, rfl⟩

/-! ### The byte transport (rules R75, R80) -/

/-- The bytes of a number are its bits, eight at a time. -/
theorem bytesOfNat_eq_map (k n : Nat) :
    bytesOfNat k n = (List.range k).map fun i => BitVec.ofNat 8 (n >>> (8 * i)) := by
  induction k generalizing n with
  | zero => rfl
  | succ k ih =>
    rw [bytesOfNat, ih, List.range_succ_eq_map, List.map_cons, List.map_map]
    have hshift (i : Nat) : (n / 256) >>> (8 * i) = n >>> (8 * (i + 1)) := by
      rw [Nat.mul_succ, Nat.add_comm, Nat.shiftRight_add, Nat.shiftRight_eq_div_pow n 8]
    simp [hshift]

/-- Taking a framed command off a stream gives it back with what follows it. -/
theorem unframeCommand_frameCommand {c : Command} (rest : List Byte)
    (hlen : c.payload.length = framedPayloadLength c.word) :
    unframeCommand (frameCommand c ++ rest) = some (c, rest) := by
  have htake : (frameCommand c ++ rest).take 8 = bytesOfNat 8 c.word.toNat := by
    rw [frameCommand, List.append_assoc, List.take_left' (length_bytesOfNat 8 _)]
  have hdrop : (frameCommand c ++ rest).drop 8 = c.payload ++ rest := by
    rw [frameCommand, List.append_assoc, List.drop_left' (length_bytesOfNat 8 _)]
  have hword : BitVec.ofNat 64 (natOfBytes (bytesOfNat 8 c.word.toNat)) = c.word := by
    simp [natOfBytes_bytesOfNat, Nat.mod_eq_of_lt c.word.isLt]
  have henough : ¬((frameCommand c ++ rest).length < 8 ∨ (c.payload ++ rest).length < c.payload.length) := by
    simp [frameCommand]
  simp only [unframeCommand, htake, hdrop, hword, ← hlen, if_neg henough, List.take_left, List.drop_left]

/-- Settles O5: byte `i` of a word is its bits `8 * i + 7` to `8 * i`, and the framed lengths cut the stream apart. -/
theorem transportRoundTrip : Obligations.TransportRoundTrip := by
  refine ⟨fun c => ?_, fun a => ?_, fun c rest => unframeCommand_frameCommand rest⟩
  · exact congrArg (· ++ c.payload) (bytesOfNat_eq_map 8 c.word.toNat)
  · exact congrArg (· ++ a.data) (bytesOfNat_eq_map 4 a.result.toNat)

/-! ### The examples of the spec -/

/-- Settles O4: every line is assembled and every word decoded by evaluation. -/
theorem encodingExamples : Obligations.EncodingExamples := by
  unfold Obligations.EncodingExamples
  decide

end Sys2Proof

namespace Sys2Proof.Machine

/-! ### A step that takes a command (rules R72, R81) -/

theorem runWord_of_decodes {w : CommandWord} {i : Instr} (h : decodeWord w = .ok i) (s : State) :
    runWord w s = exec i s := by
  simp only [runWord, h]

theorem runWord_of_rejects {w : CommandWord} {r : Reject} (h : decodeWord w = .error r) (s : State) :
    runWord w s = rejectWord r s := by
  simp only [runWord, h]

/-- Settles O6: the step takes the command (`step_serve`), and its word decodes. -/
theorem stepRunsDecodedInstruction : Obligations.StepRunsDecodedInstruction :=
  fun _ _ _ _ _ _ hv hs hq hd => (step_serve hv hs hq).trans (runWord_of_decodes hd _)

/-- STATUS is the exact word 0x000000000000000F (rule R78). -/
theorem decodeWord_eq_status_iff {w : CommandWord} : decodeWord w = .ok .status ↔ w = 0x000000000000000F#64 :=
  decodeWord_eq_ok_iff.trans eq_comm

/-! ### The decode procedure, check by check (rule R81) -/

section
variable {s : State} {w : CommandWord}

/-- While FAULT is 1 every command but the exact word of STATUS with an empty payload is refused. -/
theorem runWord_faulted (hv : s.cfg.Valid) (hf : s.fault = true)
    (hx : ¬(w = 0x000000000000000F#64 ∧ s.arrival.payload = [])) : runWord w s = .next s.answerErr := by
  cases hd : decodeWord w with
  | ok i =>
    rw [runWord_of_decodes hd]
    refine exec_faulted hv hf ?_
    rintro ⟨rfl, hp⟩
    exact hx ⟨decodeWord_eq_status_iff.1 hd, hp⟩
  | error r => rw [runWord_of_rejects hd, rejectWord_faulted hv hf]

theorem runWord_reservedOpcode (hv : s.cfg.Valid) (hf : s.fault = false) (hop : Opcode.ofCode (fieldOpc w) = none) :
    runWord w s = .next (s.violated .reservedOpcode) := by
  have hd : decodeWord w = .error .reservedOpcode := by simp only [decodeWord, hop]
  rw [runWord_of_rejects hd, rejectWord_opcode hv hf]

variable {op : Opcode} (hop : Opcode.ofCode (fieldOpc w) = some op)
include hop

theorem decodeWord_of_match (h : w &&& op.maskWord = op.matchWord) : decodeWord w = .ok (op.instr w) := by
  rw [decodeWord_of_ofCode hop, if_pos h]

theorem decodeWord_of_not_match (h : w &&& op.maskWord ≠ op.matchWord) :
    decodeWord w = .error (.reservedField op) := by
  rw [decodeWord_of_ofCode hop, if_neg h]

/-- The port is checked before the reserved fields. -/
theorem runWord_wrongPort (hv : s.cfg.Valid) (hf : s.fault = false) (hl : op.legalOn s.arrival.port = false) :
    runWord w s = .next (s.violated .roleViolation) := by
  by_cases h : w &&& op.maskWord = op.matchWord
  · obtain ⟨body, hbody⟩ := exec_eq_accept (op.instr w) hf
    rw [runWord_of_decodes (decodeWord_of_match hop h), hbody]
    exact accept_wrong_port hv hf (by rwa [Opcode.opcode_instr]) body
  · rw [runWord_of_rejects (decodeWord_of_not_match hop h), rejectWord_role hv hf hl]

theorem runWord_reservedField (hv : s.cfg.Valid) (hf : s.fault = false) (hl : op.legalOn s.arrival.port = true)
    (h : w &&& op.maskWord ≠ op.matchWord) : runWord w s = .next (s.violated .reservedField) := by
  rw [runWord_of_rejects (decodeWord_of_not_match hop h), rejectWord_field hv hf hl]

theorem runWord_wrongPayload (hv : s.cfg.Valid) (hf : s.fault = false) (hl : op.legalOn s.arrival.port = true)
    (h : w &&& op.maskWord = op.matchWord) (hp : s.arrival.payload.length ≠ (op.instr w).payloadLength) :
    runWord w s = .next (s.violated .payloadLength) := by
  obtain ⟨body, hbody⟩ := exec_eq_accept (op.instr w) hf
  rw [runWord_of_decodes (decodeWord_of_match hop h), hbody]
  exact accept_wrong_payload hv hf (by rwa [Opcode.opcode_instr]) hp body

end

/-- WRITE carries N bytes of payload and every other opcode none (rule R80). -/
theorem payloadLength_instr (op : Opcode) (w : CommandWord) :
    (op.instr w).payloadLength = if op = .write then (fieldN w).toNat else 0 := by
  cases op <;> rfl

/-- Settles O7: the checks of `step` are those of `runWord`, one lemma per line. -/
theorem decodeProcedure : Obligations.DecodeProcedure := by
  intro s p c q es hv hs hq t noEffect raise
  have htv : t.cfg.Valid := by simpa [t] using hv
  have htf : t.fault = s.fault := by simp [t]
  have hanswers : t.answers = s.answers := by simp [t]
  have hnoEffect : t.answerErr = noEffect := by simp only [noEffect, ← hanswers]; rfl
  have hraise {k : Cause} (h : runWord c.word t = .next (t.violated k)) :
      runWord c.word t = .next (raise k.code) := by
    rw [h]
    simp only [raise, noEffect, ← hanswers]
    rfl
  have hstep : step s = runWord c.word t := step_serve hv hs hq
  rw [hstep]
  split_ifs with hf hx
  · exact runWord_of_decodes (decodeWord_eq_status_iff.2 hx.1) t
  · rw [← hnoEffect]
    exact runWord_faulted htv (htf.trans hf) hx
  · have hgood : t.fault = false := htf.trans (Bool.eq_false_of_not_eq_true hf)
    cases hop : Opcode.ofCode (c.word.extractLsb' 0 4) with
    | none => exact hraise (runWord_reservedOpcode htv hgood hop)
    | some op =>
      dsimp only
      split_ifs with hl hm hwrite hother
      · exact hraise (runWord_wrongPort hop htv hgood hl)
      · exact hraise (runWord_reservedField hop htv hgood (Bool.eq_true_of_not_eq_false hl) hm)
      · have hp : c.payload.length ≠ (op.instr c.word).payloadLength := by
          rw [payloadLength_instr, if_pos hwrite.1]
          exact hwrite.2
        exact hraise (runWord_wrongPayload hop htv hgood (Bool.eq_true_of_not_eq_false hl) (not_not.1 hm) hp)
      · have hp : c.payload.length ≠ (op.instr c.word).payloadLength := by
          rw [payloadLength_instr, if_neg hother.1]
          exact hother.2
        exact hraise (runWord_wrongPayload hop htv hgood (Bool.eq_true_of_not_eq_false hl) (not_not.1 hm) hp)
      · exact runWord_of_decodes (decodeWord_of_match hop (not_not.1 hm)) t

/-! ### The ports (rule R72) -/

theorem step_issue {s : State} (hv : s.cfg.Valid) {p : Port} {c : Command} {es : List Event}
    (hs : s.schedule = .issue p c :: es) :
    step s = .next (({ s with schedule := es } : State).setQueue p (s.queue p ++ [c])) := by
  unfold step runSchedule
  rw [if_neg (not_not.2 hv), hs]
  simp only [runEvent, issueEvent, queue_schedule]

/-- No command word changes the configuration, the waiting commands, the latch or the schedule. -/
theorem WordRan.sameInterface {w : CommandWord} {s t : State} (h : WordRan w s t) : SameInterface s t := by
  cases h with
  | ran _ _ hr => exact hr.sameInterface
  | faulted _ _ _ he => exact he ▸ ⟨rfl, rfl, rfl, rfl, rfl⟩
  | violated _ _ _ _ he => exact he ▸ ⟨rfl, rfl, rfl, rfl, rfl⟩

theorem SameInterface.queue {s t : State} (h : SameInterface s t) (p : Port) : t.queue p = s.queue p := by
  obtain ⟨-, hP, hC, -⟩ := h
  cases p with
  | producer => exact hP
  | consumer => exact hC

/-- The commands that wait in the state in which a taken command is run. -/
theorem State.queue_taken (s : State) (p : Port) (c : Command) (q : List Command) :
    (s.taken p c q).queue p = q ∧ ∀ p', p' ≠ p → (s.taken p c q).queue p' = s.queue p' := by
  have htake (p' : Port) : (s.taken p c q).queue p' = (s.setQueue p q).queue p' := by cases p' <;> rfl
  exact ⟨(htake p).trans (s.queue_setQueue_same p q),
    fun p' hne => (htake p').trans (s.queue_setQueue_other p q p' hne)⟩

/-- Replacing a port's waiting commands writes the two queues only. -/
theorem State.setQueue_eq (s : State) (p : Port) (q : List Command) :
    s.setQueue p q = { s with queueP := (s.setQueue p q).queueP, queueC := (s.setQueue p q).queueC } := by
  cases p <;> rfl

/-- Settles O8: issuing is `State.setQueue`, and what runs a taken command leaves the queues alone. -/
theorem portsKeepIssueOrder : Obligations.PortsKeepIssueOrder := by
  constructor
  · intro s p c es hv hs
    refine ⟨_, step_issue hv hs, State.queue_setQueue_same _ _ _, fun p' hne => ?_, ?_⟩
    · rw [State.queue_setQueue_other _ _ _ _ hne, queue_schedule]
    · exact State.setQueue_eq _ _ _
  · intro s t p c q es hs hq hstep
    obtain ⟨hv, -⟩ := step_next hstep
    have htaken := State.queue_taken { s with schedule := es } p c q
    obtain ⟨u, hu, hran⟩ := runWord_answers_next (s := ({ s with schedule := es } : State).taken p c q)
      (by simpa using hv) c.word
    rw [step_serve hv hs hq, hu, Host.Outcome.next.injEq] at hstep
    subst hstep
    refine ⟨(hran.sameInterface.queue p).trans htaken.1, fun p' hne => ?_⟩
    rw [hran.sameInterface.queue, htaken.2 p' hne, queue_schedule]

/-! ### One response in one step (rules R71, R246) -/

section
variable {s t : State}

/-- STATUS without a payload breaks no contract: it is legal on both ports. -/
theorem Violates.not_status (hp : s.arrival.payload = []) (k : Cause) : ¬ Violates .status s k := by
  intro h
  cases h with
  | role h => cases h
  | payload _ h => exact h (by rw [hp]; rfl)

/-- The response to one command, as rules R71 and R74 say: on the port `p` it came from, with `ERR = 1` only after a
contract violation or while FAULT is 1. `status` says that the command is the STATUS word with an empty payload. -/
def Answered (p : Port) (status : Prop) (s t : State) : Prop :=
  ∃ a, t.answers = s.answers ++ [a] ∧ a.port = p ∧ (a.err = true → a.result = 0 ∧ a.data = []) ∧
    (a.err = true ↔ t.fault = true ∧ ¬ status)

theorem answered_answerErr {status : Prop} (hf : s.fault = true) (hx : ¬ status) :
    Answered s.arrival.port status s s.answerErr :=
  ⟨_, rfl, rfl, fun _ => ⟨rfl, rfl⟩, fun _ => ⟨hf, hx⟩, fun _ => rfl⟩

theorem answered_violated {status : Prop} (k : Cause) (hx : ¬ status) :
    Answered s.arrival.port status s (s.violated k) :=
  ⟨_, rfl, rfl, fun _ => ⟨rfl, rfl⟩, fun _ => ⟨rfl, hx⟩, fun _ => rfl⟩

theorem Ran.answered {i : Instr} (h : Ran i s t) :
    Answered s.arrival.port (i = .status ∧ s.arrival.payload = []) s t := by
  cases h with
  | faulted hf hx he => exact he ▸ answered_answerErr hf hx
  | violated _ k hk he =>
    refine he ▸ answered_violated k ?_
    rintro ⟨rfl, hp⟩
    exact Violates.not_status hp k hk
  | completed hr hc =>
    obtain ⟨r, d, ha⟩ := hc.answers
    refine ⟨_, ha, rfl, nofun, nofun, ?_⟩
    rintro ⟨hf, hx⟩
    rw [hc.fault.1] at hf
    obtain ⟨-, hgood, -⟩ | ⟨hi, -, hp⟩ := hr
    · simp [hf] at hgood
    · exact absurd ⟨hi, hp⟩ hx

theorem WordRan.answered {w : CommandWord} (h : WordRan w s t) :
    Answered s.arrival.port (w = 0x000000000000000F#64 ∧ s.arrival.payload = []) s t := by
  have hrejected {r : Reject} (hd : decodeWord w = .error r) :
      ¬(w = 0x000000000000000F#64 ∧ s.arrival.payload = []) := by
    rintro ⟨hw, -⟩
    rw [decodeWord_eq_status_iff.2 hw] at hd
    cases hd
  cases h with
  | ran i hd hr =>
    have hstatus : (w = 0x000000000000000F#64) = (i = .status) := by
      rw [← decodeWord_eq_status_iff, hd, Except.ok.injEq]
    rw [hstatus]
    exact hr.answered
  | faulted r hd hf he => exact he ▸ answered_answerErr hf (hrejected hd)
  | violated r hd _ k he => exact he ▸ answered_violated k (hrejected hd)

end

/-- Settles O10: the step is `runWord`, and every way it can go answers once (`WordRan.answered`). -/
theorem everyCommandAnsweredInOneStep : Obligations.EveryCommandAnsweredInOneStep := by
  intro s p c q es hv hs hq
  obtain ⟨t, ht, hran⟩ := runWord_answers_next (s := ({ s with schedule := es } : State).taken p c q)
    (by simpa using hv) c.word
  obtain ⟨a, hanswers, ha⟩ := hran.answered
  refine ⟨t, a, (step_serve hv hs hq).trans ht, ?_, ha⟩
  simpa using hanswers

/-! ### Result words (rule R82) -/

section
variable {s t : State}

theorem State.unread_eq_nil_iff : s.unread = [] ↔ s.count = 0 := by rw [← List.length_eq_zero_iff, State.length_unread]

/-- The offsets of `write` and `read` are equal exactly when nothing is unread (rule R110). -/
theorem State.Inv.isEmpty_iff (h : s.Inv) : s.isEmpty = true ↔ s.count = 0 := by
  have hmask := s.count_le_mask
  have hsize := s.cfg.size_eq
  have hpw : s.pw = s.offset (s.cursorAdd s.read s.count) := by rw [State.pw, h.write_eq]
  have hpr : s.pr = s.offset (s.cursorAdd s.read 0) := by rw [State.pr, h.cursorAdd_zero]
  rw [State.isEmpty, decide_eq_true_iff, hpw, hpr]
  constructor
  · exact fun he => State.offset_cursorAdd_inj h.1 he (by omega) (by omega)
  · exact fun hz => by rw [hz]

/-- The slot after `pw` is at `pr` exactly when MASK bytes are unread (rule R111). -/
theorem State.Inv.isFull_iff (h : s.Inv) : s.isFull = true ↔ s.count = s.cfg.mask := by
  have hmask := s.count_le_mask
  have hsize := s.cfg.size_eq
  have hpr : s.pr = s.offset (s.cursorAdd s.read 0) := by rw [State.pr, h.cursorAdd_zero]
  rw [State.isFull, decide_eq_true_iff, h.cursorAdd_write, hpr]
  constructor
  · intro he
    by_contra hne
    have := State.offset_cursorAdd_inj h.1 he (by omega) (by omega)
    omega
  · intro hfull
    rw [hfull, ← hsize, State.offset_cursorAdd h.1, State.offset_cursorAdd h.1, Nat.add_mod_right, Nat.add_zero]

/-- A condition is answered as 1 or 0. -/
theorem resultOfBool_eq_ite {b : Bool} {P : Prop} [Decidable P] (h : b = true ↔ P) :
    resultOfBool b = if P then 1 else 0 := by
  simp [resultOfBool, h]

theorem resultOfBool_toNat_le (b : Bool) : (resultOfBool b).toNat ≤ 1 := by cases b <;> decide

/-- What rule R82 says of the answer of an instruction. -/
structure ResultFits (i : Instr) (s : State) (a : Answer) : Prop where
  bounded : i.opcode ≠ .fullCount → i.opcode ≠ .status → a.result.toNat ≤ s.cfg.mask
  isEmpty : i = .isEmpty → a.err = false → a.result = if s.unread = [] then 1 else 0
  isFull : i = .isFull → a.err = false → a.result = if s.unread.length = s.cfg.mask then 1 else 0
  data : i.opcode = .read ∨ i.opcode = .readUntil → a.data.length = a.result.toNat
  noData : i.opcode ≠ .read → i.opcode ≠ .readUntil → a.data = []

section
variable {i : Instr} {p : Port} {r : ResultWord} {d : List Byte}

theorem resultFits_err : ResultFits i s { port := p, err := true, result := 0, data := [] } :=
  ⟨fun _ _ => Nat.zero_le _, fun _ => nofun, fun _ => nofun, fun _ => rfl, fun _ _ => rfl⟩

/-- The instructions whose result is a number and that return no data. -/
abbrev AnswersNumber (i : Instr) : Prop :=
  i.opcode ≠ .read ∧ i.opcode ≠ .readUntil ∧ i.opcode ≠ .isEmpty ∧ i.opcode ≠ .isFull

theorem resultFits_number (hr : i.opcode ≠ .fullCount → i.opcode ≠ .status → r.toNat ≤ s.cfg.mask)
    (hi : AnswersNumber i := by exact ⟨nofun, nofun, nofun, nofun⟩) :
    ResultFits i s { port := p, err := false, result := r, data := [] } := by
  obtain ⟨hread, huntil, hempty, hfull⟩ := hi
  refine ⟨hr, ?_, ?_, fun hi => (hi.elim hread huntil).elim, fun _ _ => rfl⟩
  · rintro rfl
    exact absurd rfl hempty
  · rintro rfl
    exact absurd rfl hfull

theorem resultFits_count {m : Nat} (hv : s.cfg.Valid) (hm : m ≤ s.cfg.mask)
    (hi : AnswersNumber i := by exact ⟨nofun, nofun, nofun, nofun⟩) :
    ResultFits i s { port := p, err := false, result := resultOfNat m, data := [] } :=
  resultFits_number (fun _ _ => (resultOfNat_toNat hv hm).le.trans hm) hi

/-- The answer of READ and READ_UNTIL: as many bytes as RESULT says, and no more than are unread. -/
theorem resultFits_data (hi : i.opcode = .read ∨ i.opcode = .readUntil) (hv : s.cfg.Valid) (hd : d.length ≤ s.count) :
    ResultFits i s { port := p, err := false, result := resultOfNat d.length, data := d } := by
  have hle : d.length ≤ s.cfg.mask := hd.trans s.count_le_mask
  have hresult : (resultOfNat d.length).toNat = d.length := resultOfNat_toNat hv hle
  refine ⟨fun _ _ => hresult.le.trans hle, ?_, ?_, fun _ => hresult.symm, fun hr hu => (hi.elim hr hu).elim⟩
  · rintro rfl
    simp [Instr.opcode] at hi
  · rintro rfl
    simp [Instr.opcode] at hi

theorem State.Inv.resultFits_isEmpty (h : s.Inv) :
    ResultFits .isEmpty s { port := p, err := false, result := resultOfBool s.isEmpty, data := [] } := by
  have hbound : 1 ≤ s.cfg.mask := Nat.le_sub_one_of_lt (Config.size_ge_two h.1)
  refine ⟨fun _ _ => (resultOfBool_toNat_le _).trans hbound, fun _ _ => ?_, nofun, nofun, fun _ _ => rfl⟩
  exact resultOfBool_eq_ite (h.isEmpty_iff.trans State.unread_eq_nil_iff.symm)

theorem State.Inv.resultFits_isFull (h : s.Inv) :
    ResultFits .isFull s { port := p, err := false, result := resultOfBool s.isFull, data := [] } := by
  have hbound : 1 ≤ s.cfg.mask := Nat.le_sub_one_of_lt (Config.size_ge_two h.1)
  refine ⟨fun _ _ => (resultOfBool_toNat_le _).trans hbound, nofun, fun _ _ => ?_, nofun, fun _ _ => rfl⟩
  exact resultOfBool_eq_ite (by rw [h.isFull_iff, State.length_unread])

/-- An answer that is given in a state with the same earlier answers. -/
theorem exists_answer_of_fits {u : State} (hu : u.answers = s.answers)
    (h : ResultFits i s { port := u.arrival.port, err := false, result := r, data := d }) :
    ∃ a, (u.answer r d).answers = s.answers ++ [a] ∧ ResultFits i s a :=
  ⟨_, by rw [State.answer_answers, hu], h⟩

theorem Completes.resultFits (h : Completes i s t) (hi : s.Inv) :
    ∃ a, t.answers = s.answers ++ [a] ∧ ResultFits i s a := by
  have hv := hi.1
  have hmask := s.count_le_mask
  have hfree : s.free ≤ s.cfg.mask := Nat.sub_le _ _
  cases h with
  | init | writeRejected | syncToByte =>
    exact exists_answer_of_fits rfl (resultFits_number fun _ _ => Nat.zero_le _)
  | dmaAdvance =>
    exact exists_answer_of_fits (by simp [State.reconcile]) (resultFits_number fun _ _ => Nat.zero_le _)
  | write _ n _ hlt =>
    exact exists_answer_of_fits (by simp [State.writePayload]) (resultFits_count hv (Nat.le_sub_one_of_lt hlt))
  | read _ n => exact exists_answer_of_fits rfl (resultFits_data (.inl rfl) hv (by simp))
  | readUntil _ n d =>
    exact exists_answer_of_fits rfl (resultFits_data (.inr rfl) hv (length_emitUntil_le_count s d n.toNat))
  | isEmpty => exact exists_answer_of_fits rfl hi.resultFits_isEmpty
  | isFull => exact exists_answer_of_fits rfl hi.resultFits_isFull
  | dataCount => exact exists_answer_of_fits rfl (resultFits_count hv hmask)
  | emptyCount => exact exists_answer_of_fits rfl (resultFits_count hv hfree)
  | contigDataCount => exact exists_answer_of_fits rfl (resultFits_count hv ((Nat.min_le_left _ _).trans hmask))
  | contigEmptyCount => exact exists_answer_of_fits rfl (resultFits_count hv ((Nat.min_le_left _ _).trans hfree))
  | fullCount => exact exists_answer_of_fits rfl (resultFits_number fun hne => absurd rfl hne)
  | status => exact exists_answer_of_fits rfl (resultFits_number fun _ hne => absurd rfl hne)

theorem Ran.resultFits (h : Ran i s t) (hi : s.Inv) : ∃ a, t.answers = s.answers ++ [a] ∧ ResultFits i s a := by
  cases h with
  | faulted _ _ he => exact ⟨_, congrArg State.answers he, resultFits_err⟩
  | violated _ _ _ he => exact ⟨_, congrArg State.answers he, resultFits_err⟩
  | completed _ hc => exact hc.resultFits hi

end

end

/-- Settles O11: by the cases of an instruction, `ResultFits` for each. -/
theorem resultWords : Obligations.ResultWords := by
  intro i s t hi he
  obtain ⟨a, hanswers, hfits⟩ := (exec_next he).2.resultFits hi
  exact ⟨a, hanswers, hfits.bounded, hfits.isEmpty, hfits.isFull, hfits.data, hfits.noData⟩

end Sys2Proof.Machine

/-! # Scope: construction

INIT is legal on either port and carries no payload, so with FAULT = 0 Decode lets it through to its own rule, which
writes the four registers and answers. -/

namespace Sys2Proof.Machine

/-- A ready INIT (rule R100). -/
theorem exec_init {s : State} (hr : s.Ready .init) :
    exec .init s = .next ({ s with write := 0, read := 0, dmaCnt := 0, fullCnt := 0 }.answer 0 []) := by
  rw [exec, execInit, accept_of_ready hr]

/-- Settles O24: an INIT with an empty payload is ready whichever port it arrived on. -/
theorem initResult : Obligations.InitResult := by
  intro s hv hf hp
  have hready : s.Ready .init := ⟨hv, hf, rfl, congrArg List.length hp⟩
  exact exec_init hready

end Sys2Proof.Machine

/-! # Scope: the queries

Every query answers from its own rule and changes nothing else, so each result obligation is `exec_query_answer` with
the model's value of the query rewritten to the spec's closed form: what the two cursors come to (rules R27, R110,
R111) and the number that the fields of the STATUS word make (rule R118). The law of R116 about a READ follows from
what READ consumes. -/

namespace Sys2Proof.Machine

/-! ### The rule of a query -/

section
variable {i : Instr} {s t u : State} {r r' : ResultWord}

/-- A query is legal on either port and carries no payload. -/
theorem IsQuery.ready (hq : IsQuery i) (hv : s.cfg.Valid) (hf : s.fault = false) (hp : s.arrival.payload = []) :
    s.Ready i := by
  have hi : i.opcode.legalOn s.arrival.port = true ∧ i.payloadLength = 0 := by
    cases i with
    | init | write | dmaAdvance | read | readUntil | syncToByte => simp at hq
    | _ => exact ⟨rfl, rfl⟩
  exact ⟨hv, hf, hi.1, by rw [hp, hi.2, List.length_nil]⟩

/-- A query's own rule leaves one state only. -/
theorem Completes.query_unique (h : Completes i s t) (hu : Completes i s u) (hq : IsQuery i) : u = t := by
  cases h with
  | init | writeRejected | write | dmaAdvance | read | readUntil | syncToByte => simp at hq
  | _ => cases hu; rfl

/-- A query that arrives with an empty payload while FAULT is 0, or STATUS also while FAULT is 1, gives the answer of
its own rule. -/
theorem exec_query_answer (hq : IsQuery i) (hv : s.cfg.Valid) (hf : s.fault = false ∨ i = .status)
    (hp : s.arrival.payload = []) (hc : Completes i s (s.answer r [])) (hr : r = r') :
    exec i s = .next (s.answer r' []) := by
  have hruns : s.Ready i ∨ i = .status ∧ s.fault = true ∧ s.arrival.payload = [] := by
    cases hs : s.fault with
    | false => exact .inl (hq.ready hv hs hp)
    | true => exact .inr ⟨hf.resolve_left (by simp [hs]), rfl, hp⟩
  obtain ⟨u, hu, hcu⟩ := exec_query hv hq hruns
  rw [hu, hc.query_unique hcu hq, hr]

end

/-! ### The values of the cursor queries in closed form -/

section
variable {s : State}

theorem State.isEmpty_iff_mod (s : State) : s.isEmpty = true ↔ s.write % s.cfg.size = s.read % s.cfg.size := by
  rw [State.isEmpty, decide_eq_true_iff, State.pw, State.pr, State.offset_eq_mod, State.offset_eq_mod]

theorem State.isFull_iff_mod (hv : s.cfg.Valid) :
    s.isFull = true ↔ (s.write + 1) % s.cfg.size = s.read % s.cfg.size := by
  rw [State.isFull, decide_eq_true_iff, State.pr, State.offset_cursorAdd hv, State.offset_eq_mod]

/-- Under the invariant the count is the distance from `read` to `write` around the cursors' range (rule R27). -/
theorem State.Inv.count_eq_distance (h : s.Inv) :
    s.count = (s.write + s.cfg.cursorModulus - s.read) % s.cfg.cursorModulus := by
  have hread : s.read < s.cfg.cursorModulus := h.2.2.1
  rw [h.count_eq, State.cursorSub, wrapSub_eq_mod h.2.1 hread, Nat.add_sub_assoc hread.le]

theorem State.free_eq_zero_iff (s : State) : s.free = 0 ↔ s.count = s.cfg.mask := by
  have := s.count_le_mask
  unfold State.free
  omega

end

/-! ### The STATUS word (rule R118) -/

/-- The low part of a concatenation fits below the high part, so the number of the whole is a sum. -/
theorem toNat_append_eq_add {m n : Nat} (x : BitVec m) (y : BitVec n) :
    (x ++ y).toNat = x.toNat * 2 ^ n + y.toNat := by
  rw [BitVec.toNat_append, ← Nat.shiftLeft_add_eq_or_of_lt y.isLt, Nat.shiftLeft_eq]

/-- FAULT stands at bit 0, CAUSE at bit 4 and P_SIZE_LOG2, which fits its 5 bits, at bit 8. -/
theorem State.statusWord_eq {s : State} (hv : s.cfg.Valid) :
    s.statusWord = BitVec.ofNat 32 (s.cfg.sizeLog2 * 256 + s.cause.toNat * 16 + if s.fault then 1 else 0) := by
  have hlog : s.cfg.sizeLog2 % 2 ^ 5 = s.cfg.sizeLog2 := Nat.mod_eq_of_lt (Nat.lt_succ_of_le hv.2.1)
  have hcause : s.cause.toNat < 2 ^ 4 := s.cause.isLt
  have hfault : (BitVec.ofBool s.fault).toNat = if s.fault then 1 else 0 := by cases s.fault <;> rfl
  have hbit : (if s.fault then 1 else 0) < 2 := by split <;> omega
  apply BitVec.eq_of_toNat_eq
  simp only [State.statusWord, toNat_append_eq_add, hfault, BitVec.toNat_ofNat, hlog]
  omega

/-! ### A READ within the unread data (rule R150) -/

section
variable {s : State} {m : Nat}

/-- A READ of no more bytes than are unread is not clamped. -/
theorem exec_read_within (hn : (BitVec.ofNat 32 m).toNat = m) (hr : s.Ready (.read (BitVec.ofNat 32 m))) (h0 : 0 < m)
    (hm : m ≤ s.count) : exec (.read (BitVec.ofNat 32 m)) s = .next (s.consume (s.loadRun s.read m)) := by
  rw [exec_read hr (by rwa [hn]), hn, Nat.min_eq_left hm]

/-- Consuming `m` of the unread bytes takes the count down by `m`. -/
theorem State.Inv.count_consume (h : s.Inv) (hm : m ≤ s.count) :
    (s.consume (s.loadRun s.read m)).count = s.count - m := by
  rw [← h.advanceRead_count hm]
  exact State.count_congr rfl rfl (congrArg (s.cursorAdd s.read) (s.length_loadRun s.read m))

end

/-! ### The laws of the counts (rules R110, R111, R116) -/

/-- Settles O34: with equal offsets nothing is unread, so `write` is `read` moved by 0. -/
theorem emptyAndFullAgreeWithCounts : Obligations.EmptyAndFullAgreeWithCounts := by
  intro s h
  refine ⟨h.isEmpty_iff, h.isFull_iff, h.isFull_iff.trans s.free_eq_zero_iff.symm, fun he => ?_⟩
  calc s.write = s.cursorAdd s.read s.count := h.write_eq.symm
    _ = s.cursorAdd s.read 0 := by rw [h.isEmpty_iff.1 he]
    _ = s.read := h.cursorAdd_zero

/-- Settles O35: the contiguous run is part of the unread data, so a READ of its length takes out exactly that. -/
theorem countQueryLaws : Obligations.CountQueryLaws := by
  intro s h
  have hdata : s.contigData ≤ s.count := Nat.min_le_left _ _
  have hempty : s.contigEmpty ≤ s.free := Nat.min_le_left _ _
  have hfits : (resultOfNat s.contigData).toNat = s.contigData := resultOfNat_toNat h.1 (hdata.trans s.count_le_mask)
  refine ⟨hdata, hempty, Nat.add_sub_of_le s.count_le_mask, fun hr h0 => ?_⟩
  refine ⟨_, _, exec_read_within hfits hr h0 hdata, rfl, rfl, ?_, h.count_consume hdata⟩
  rw [State.length_loadRun, hfits]

/-! ### The results -/

/-- Settles O26: `pw` and `pr` are the cursors modulo SIZE. -/
theorem isEmptyResult : Obligations.IsEmptyResult := by
  intro s hv hf hp
  exact exec_query_answer (by simp) hv (.inl hf) hp (.isEmpty s) (resultOfBool_eq_ite s.isEmpty_iff_mod)

/-- Settles O27: the slot after `pw` is `write + 1` modulo SIZE, the width dropping out. -/
theorem isFullResult : Obligations.IsFullResult := by
  intro s hv hf hp
  exact exec_query_answer (by simp) hv (.inl hf) hp (.isFull s) (resultOfBool_eq_ite (State.isFull_iff_mod hv))

/-- Settles O28: under the invariant masking the distance of the cursors loses nothing. -/
theorem dataCountResult : Obligations.DataCountResult := by
  intro s h hf hp
  exact exec_query_answer (by simp) h.1 (.inl hf) hp (.dataCount s) (congrArg _ h.count_eq_distance)

/-- Settles O29: MASK less that distance. -/
theorem emptyCountResult : Obligations.EmptyCountResult := by
  intro s h hf hp
  refine exec_query_answer (by simp) h.1 (.inl hf) hp (.emptyCount s) ?_
  rw [State.free, h.count_eq_distance]
  rfl

/-- Settles O30: that distance, cut at the end of the array. -/
theorem contigDataCountResult : Obligations.ContigDataCountResult := by
  intro s h hf hp
  refine exec_query_answer (by simp) h.1 (.inl hf) hp (.contigDataCount s) ?_
  rw [State.contigData, h.count_eq_distance, State.pr, State.offset_eq_mod]
  rfl

/-- Settles O31: MASK less that distance, cut at the end of the array. -/
theorem contigEmptyCountResult : Obligations.ContigEmptyCountResult := by
  intro s h hf hp
  refine exec_query_answer (by simp) h.1 (.inl hf) hp (.contigEmptyCount s) ?_
  rw [State.contigEmpty, State.free, h.count_eq_distance, State.pw, State.offset_eq_mod]
  rfl

/-- Settles O32: the answer is the register as it stands. -/
theorem fullCountResult : Obligations.FullCountResult := by
  intro s hv hf hp
  exact exec_query_answer (by simp) hv (.inl hf) hp (.fullCount s) rfl

/-- Settles O33: STATUS runs its own rule whatever FAULT holds. -/
theorem statusResult : Obligations.StatusResult := by
  intro s hv hp
  exact exec_query_answer (by simp) hv (.inr rfl) hp (.status s) (State.statusWord_eq hv)

end Sys2Proof.Machine

/-! # Scope: the commit and the producer's commands

WRITE and DMA_ADVANCE end in the same `Commit(m)`, so what it does to the cursors and to `full_cnt` is said once, in
closed form (`State.commit_eq`); WRITE adds the payload's stores in front of it (`State.writePayload_eq`) and
DMA_ADVANCE the new `dma_cnt`. -/

namespace Sys2Proof.Machine

/-! ### Commit (rules R131 to R134) -/

section
variable {s : State} {m : Nat}

/-- MASK behind the advanced `write`, where the overwrite puts `read` (rule R132). -/
theorem State.cursorSub_cursorAdd_mask (hv : s.cfg.Valid) (c m : Nat) :
    s.cursorSub (s.cursorAdd c m) s.cfg.mask =
      ((c + m) + (s.cfg.cursorModulus - s.cfg.mask)) % s.cfg.cursorModulus := by
  have hM := Config.two_size_le hv
  have hsize := s.cfg.size_eq
  have hmask : s.cfg.mask < s.cfg.cursorModulus := by omega
  rw [State.cursorSub, wrapSub_eq_mod (State.cursorAdd_lt s c m) hmask, State.cursorAdd, wrapAdd, Nat.mod_add_mod]

/-- A commit writes the two cursors and `full_cnt` (rule R131). -/
theorem State.commit_eq (hv : s.cfg.Valid) (m : Nat) :
    s.commit m = { s with
      write := (s.write + m) % s.cfg.cursorModulus
      read := if m > s.cfg.mask - s.count then
        ((s.write + m) + (s.cfg.cursorModulus - s.cfg.mask)) % s.cfg.cursorModulus else s.read
      fullCnt := if m > s.cfg.mask - s.count then s.fullCnt + 1 else s.fullCnt } := by
  rw [← State.cursorSub_cursorAdd_mask hv]
  obtain ⟨hfits, he⟩ | ⟨hover, he⟩ := s.commit_cases m
  · have hno : ¬ m > s.cfg.mask - s.count := Nat.not_lt.2 hfits
    rw [he, if_neg hno, if_neg hno]
    rfl
  · have hyes : m > s.cfg.mask - s.count := hover
    rw [he, if_pos hyes, if_pos hyes]
    rfl

/-- The distance of the cursors after a commit (rule R133). -/
theorem State.Inv.commit_distance (h : s.Inv) (hm : m ≤ s.cfg.mask) :
    s.cursorSub (s.commit m).write (s.commit m).read = min (s.count + m) s.cfg.mask := by
  have ⟨hv, hw, hr, _, hdist, _⟩ := h
  exact State.commit_distance hv hw hr hdist hm

theorem State.Inv.commit_count (h : s.Inv) (hm : m ≤ s.cfg.mask) :
    (s.commit m).count = min (s.count + m) s.cfg.mask := by
  rw [(h.commit hm).count_eq, State.cursorSub_congr (State.commit_cfg s m), h.commit_distance hm]

/-- A commit exceeds the free slots exactly when it pushes the unread data past SIZE - 1 (rule R134). -/
theorem State.free_lt_iff (s : State) (m : Nat) : m > s.free ↔ s.unread.length + m > s.cfg.size - 1 := by
  have hcount := s.count_le_mask
  have hsize := s.cfg.size_eq
  rw [State.length_unread, State.free]
  omega

/-- Rule R139: one event for a commit that does not fit, none for one that does. -/
theorem State.commit_fullCnt_eq (s : State) (m : Nat) :
    (s.commit m).fullCnt = if s.unread.length + m > s.cfg.size - 1 then s.fullCnt + 1 else s.fullCnt := by
  rw [State.commit_fullCnt]
  exact if_congr (s.free_lt_iff m) rfl rfl

end

/-- Settles O37: the distance of the cursors after a commit, which is also the count. -/
theorem commitEffectOnCount : Obligations.CommitEffectOnCount := by
  intro s m h hm
  have hd := h.commit_distance hm
  refine ⟨h.commit_count hm, ?_, fun hfits => ?_, fun hover => ?_⟩
  · exact hd.trans_le (Nat.min_le_right _ _)
  · exact hd.trans (Nat.min_eq_left hfits)
  · exact hd.trans (Nat.min_eq_right hover.le)

/-! ### Which commands Decode lets through (rule R81) -/

/-- A command on port `p`, which may issue it, with a payload of its length. -/
theorem State.ready_on {s : State} {i : Instr} {p : Port} (hv : s.cfg.Valid) (hf : s.fault = false)
    (hport : s.arrival.port = p) (hlegal : i.opcode.legalOn p = true)
    (hlen : s.arrival.payload.length = i.payloadLength) : s.Ready i :=
  ⟨hv, hf, hport ▸ hlegal, hlen⟩

/-- Settles O23: each command is ready on its own port with an empty payload, and its rule first checks its count. -/
theorem zeroLengthRaises : Obligations.ZeroLengthRaises := by
  intro s d hv hf hp
  have hlen : s.arrival.payload.length = 0 := List.length_eq_zero_iff.2 hp
  refine ⟨fun hport => ?_, fun hport => ?_, fun hport => ?_⟩
  · have hready : s.Ready (.write 0) := State.ready_on hv hf hport rfl hlen
    rw [exec, execWrite, accept_of_ready hready]
    rfl
  · have hready : s.Ready (.read 0) := State.ready_on hv hf hport rfl hlen
    rw [exec, execRead, accept_of_ready hready]
    rfl
  · have hready : s.Ready (.readUntil 0 d) := State.ready_on hv hf hport rfl hlen
    rw [exec, execReadUntil, accept_of_ready hready]
    rfl

/-! ### WRITE (rules R135 to R139) -/

section
variable {s : State} {n : OperandWord}

/-- A ready WRITE of SIZE bytes or more (rule R136). -/
theorem exec_write_rejected (hr : s.Ready (.write n)) (h : s.cfg.size ≤ n.toNat) :
    exec (.write n) s = .next (s.answer 0 []) := by
  have hpos := s.cfg.size_pos
  refine exec_eq_of_completes hr ?_ fun u hu => ?_
  · exact Violates.not_of_ready hr (by intro m hm; cases hm; omega) (by simp) (by simp)
  · cases hu with
    | writeRejected => rfl
    | write _ _ _ hlt => exact absurd h (Nat.not_le.2 hlt)

/-- An accepted WRITE commits after stores that no commit looks at. -/
theorem State.writePayload_eq (hv : s.cfg.Valid) (m : Nat) :
    s.writePayload m = { s.commit m with storage := (s.writePayload m).storage } := by
  obtain ⟨mem, hrun⟩ : ∃ mem, s.storeRunFrom s.write 0 s.arrival.payload = { s with storage := mem } :=
    ⟨_, State.storeRunFrom_eq s s.write 0 s.arrival.payload⟩
  rw [State.writePayload, hrun, State.commit_eq hv, State.commit_eq (s := { s with storage := mem }) hv]
  rfl

theorem State.writePayload_write (hv : s.cfg.Valid) (m : Nat) : (s.writePayload m).write = s.cursorAdd s.write m :=
  (congrArg State.write (State.writePayload_eq hv m)).trans (s.commit_write m)

/-- `read` moves past the bytes that no longer fit. -/
theorem State.Inv.writePayload_read (h : s.Inv) (m : Nat) :
    (s.writePayload m).read = s.cursorAdd s.read (s.count + m - s.cfg.mask) :=
  (congrArg State.read (State.writePayload_eq h.1 m)).trans (h.commit_read_eq m)

theorem State.writePayload_fullCnt (hv : s.cfg.Valid) (m : Nat) :
    (s.writePayload m).fullCnt = if s.unread.length + m > s.cfg.size - 1 then s.fullCnt + 1 else s.fullCnt :=
  (congrArg State.fullCnt (State.writePayload_eq hv m)).trans (s.commit_fullCnt_eq m)

/-- Byte `i` of the payload is at index `i` from `write` (rule R135). -/
theorem State.Inv.load_writePayload (h : s.Inv) (hl : s.arrival.payload.length ≤ s.cfg.size) (m : Nat) {i : Nat}
    (hi : i < s.arrival.payload.length) :
    (s.writePayload m).load (s.offset (s.cursorAdd s.write i)) = s.arrival.payload[i] := by
  have ⟨hv, _, _, _, _, hwf, _⟩ := h
  have hstored := State.load_storeRunFrom hv s.write 0 s.arrival.payload hwf hl i hi
  rw [Nat.zero_add] at hstored
  exact (State.load_congr (State.commit_storage _ m) _).trans hstored

end

/-- Settles O39: such a WRITE is ready, and its rule only answers. -/
theorem writeTooLongRejected : Obligations.WriteTooLongRejected := by
  intro s n hv hf hport hlen hn
  rw [exec_write_rejected (State.ready_on hv hf hport rfl hlen) hn, ← hport]
  rfl

/-- Settles O38: the registers are those of the commit (`State.commit_eq`), the bytes those of the run of stores. -/
theorem writeResult : Obligations.WriteResult := by
  intro s n h hf hport hlen h0 hn
  have ⟨hv, _, _, _, _, hwf, _⟩ := h
  have hready : s.Ready (.write n) := State.ready_on hv hf hport rfl hlen
  have hoff (i : Nat) : s.offset (s.cursorAdd s.write i) = (s.write + i) % s.cfg.size := State.offset_cursorAdd hv _ _
  refine ⟨_, exec_write hready h0 hn, ?_, fun i hi => ?_, fun a ha => ?_⟩
  · rw [resultOfNat, BitVec.ofNat_toNat, BitVec.setWidth_eq, State.writePayload_eq hv, State.commit_eq hv, ← hport]
    rfl
  · rw [← hoff]
    exact h.load_writePayload (hlen ▸ hn.le) n.toNat hi
  · exact State.load_writePayload_other hwf hlen fun ⟨i, hi, he⟩ => ha i hi (he.trans (hoff i))

/-- Settles O40: WRITE stores its payload from `write` and commits it (`State.Inv.storeRun_commit_unread`). -/
theorem writeKeepsNewestBytes : Obligations.WriteKeepsNewestBytes := by
  intro s n h hf hport hlen h0 hn
  have hready : s.Ready (.write n) := State.ready_on h.1 hf hport rfl hlen
  have hfits : s.arrival.payload.length ≤ s.cfg.mask := hlen ▸ Nat.le_sub_one_of_lt hn
  refine ⟨_, exec_write hready h0 hn, ?_⟩
  rw [← h.storeRun_commit_unread hfits, hlen]
  rfl

/-- Settles O41: the slot after `pw` is at `pr` exactly when MASK bytes are unread (`State.Inv.isFull_iff`), which is
when a commit of one byte does not fit. -/
theorem singleByteWriteFastPath : Obligations.SingleByteWriteFastPath := by
  intro s b h hf hport hpay
  have hlen : s.arrival.payload.length = 1 := congrArg List.length hpay
  have hready : s.Ready (.write 1) := State.ready_on h.1 hf hport rfl hlen
  have hwrite := State.writePayload_write h.1 1
  have hread := h.writePayload_read 1
  have hfull := State.writePayload_fullCnt h.1 1
  have hload : (s.writePayload 1).load (s.offset s.write) = b := by
    have hfirst := h.load_writePayload (hlen ▸ s.cfg.size_pos) 1 (i := 0) (hlen ▸ Nat.one_pos)
    simpa only [State.cursorAdd, wrapAdd_zero h.2.1, hpay, List.getElem_cons_zero] using hfirst
  have hcollides : s.offset (s.writePayload 1).write = s.pr ↔ s.count = s.cfg.mask := by
    rw [hwrite, ← h.isFull_iff, State.isFull, decide_eq_true_iff]
  rw [State.length_unread] at hfull
  refine ⟨_, exec_write hready Nat.one_pos (Config.size_ge_two h.1), hload, hwrite, hcollides, ?_, ?_⟩
  · intro hc
    have hcount := hcollides.1 hc
    rw [hcount, Nat.add_sub_cancel_left] at hread
    exact ⟨hread, hfull.trans (if_pos (hcount ▸ Nat.lt_succ_self s.cfg.mask))⟩
  · intro hc
    have hcount : s.count < s.cfg.mask := lt_of_le_of_ne s.count_le_mask (mt hcollides.2 hc)
    rw [Nat.sub_eq_zero_of_le hcount, h.cursorAdd_zero] at hread
    exact ⟨hread, hfull.trans (if_neg (Nat.not_lt.2 hcount))⟩

/-- Settles O42: both commands move `full_cnt` by their commit alone (`State.commit_fullCnt_eq`). -/
theorem oneOverwriteEventPerCommit : Obligations.OneOverwriteEventPerCommit := by
  intro s h
  refine ⟨fun n hr h0 hn => ⟨_, exec_write hr h0 hn, ?_⟩, fun v hr => ⟨_, exec_dmaAdvance hr, ?_⟩⟩
  · exact State.writePayload_fullCnt h.1 n.toNat
  · exact State.commit_fullCnt_eq { s with dmaCnt := producedOf s.cfg.size v.toInt } _

/-! ### DMA_ADVANCE (rules R170 to R174) -/

theorem natCast_clampSample (size : Nat) (v : Int) :
    (clampSample size v : Int) = if v < 0 then 0 else if v > size then (size : Int) else v := by
  refine Int.toNat_of_nonneg ?_
  split
  · exact le_rfl
  · split <;> omega

/-- The produced position as the spec computes it, over the integers (rule R170). -/
theorem producedOf_eq_int (size : Nat) (v : Int) :
    producedOf size v = (((size : Int) - clampSample size v) % size).toNat := by
  rw [← Nat.cast_sub (clampSample_le size v), ← Int.natCast_mod, Int.toNat_natCast, producedOf]

/-- Settles O52: DMA_ADVANCE sets `dma_cnt` and commits the difference of the two positions. -/
theorem dmaAdvanceResult : Obligations.DmaAdvanceResult := by
  intro s v h hf hport hpay c produced delta
  have hlen : s.arrival.payload.length = 0 := List.length_eq_zero_iff.2 hpay
  have hready : s.Ready (.dmaAdvance v) := State.ready_on h.1 hf hport rfl hlen
  have hproduced : producedOf s.cfg.size v.toInt = produced := by rw [producedOf_eq_int, natCast_clampSample]
  have hcommit : s.reconcile produced = ({ s with dmaCnt := produced } : State).commit delta := rfl
  rw [exec_dmaAdvance hready, hproduced, hcommit, State.commit_eq (s := { s with dmaCnt := produced }) h.1, ← hport]
  rfl

end Sys2Proof.Machine

/-! # Scope: the consumer's reads

READ and READ_UNTIL consume the oldest unread bytes, so a result is settled by their number and one closed form
(`State.consume_oldest`). The round-trip law is an induction over the run, in which each command keeps the bytes in
order: unread before and then committed is taken out and then left unread (`Completes.in_order`). -/

namespace Sys2Proof.Machine

/-! ### The round-trip law (rule R160) -/

section
variable {i : Instr} {s t : State} {w c : List Byte}

/-- A query or consumer command parts the unread data into what it takes out and what it leaves. -/
theorem Completes.unread_eq_consumed_append (h : Completes i s t) (hi : s.Inv)
    (kind : i.opcode ≠ .init ∧ i.opcode ≠ .write ∧ i.opcode ≠ .dmaAdvance) :
    s.unread = consumedBy i s t ++ t.unread := by
  obtain ⟨hcfg, -⟩ := h.sameInterface
  obtain ⟨hwrite, -, -, hmem, m, hm, hread, hcount⟩ := h.within_unread hi kind
  have htaken : consumedBy i s t = s.unread.take m := by
    rw [h.consumedBy_eq_take hi kind, hcount, Nat.sub_sub_self hm]
  have hleft : t.unread = s.unread.drop m :=
    (State.unread_congr (t := s.advanceRead m) hcfg hwrite hread hmem).trans (hi.advanceRead_unread hm)
  rw [htaken, hleft, List.take_append_drop]

/-- Only a WRITE commits bytes. -/
theorem committedBy_of_not_write (h : i.opcode ≠ .write) (s : State) : committedBy i s = [] := by
  cases i with
  | write => exact absurd rfl h
  | _ => rfl

/-- A WRITE that fits appends its payload to the unread data (rule R138). -/
theorem State.Inv.writePayload_unread (h : s.Inv) {n : Nat} (hlen : s.arrival.payload.length = n)
    (hfits : s.count + s.arrival.payload.length ≤ s.cfg.mask) :
    (s.writePayload n).unread = s.unread ++ s.arrival.payload := by
  have hall : (s.unread ++ s.arrival.payload).length ≤ s.cfg.mask := by simpa using hfits
  rw [State.writePayload, ← hlen, h.storeRun_commit_unread (by omega), lastBytes_of_length_le hall]

/-- One command of a round-trip run: what was unread, then what is committed, is what is taken out, then what is left
unread. -/
theorem Completes.in_order (h : Completes i s t) (hi : s.Inv) (kind : i.opcode ≠ .init ∧ i.opcode ≠ .dmaAdvance)
    (fits : s.count + (committedBy i s).length ≤ s.cfg.mask) :
    s.unread ++ committedBy i s = consumedBy i s t ++ t.unread := by
  by_cases hw : i.opcode = .write
  · cases h with
    | writeRejected _ n hn =>
      have hnone : committedBy (.write n) s = [] := if_neg (Nat.not_lt.2 hn)
      rw [hnone, List.append_nil]
      rfl
    | write _ n _ hlt hp =>
      have hpayload : committedBy (.write n) s = s.arrival.payload := if_pos hlt
      rw [hpayload] at fits ⊢
      exact (hi.writePayload_unread hp fits).symm
    | _ => cases hw
  · rw [committedBy_of_not_write hw, List.append_nil]
    exact h.unread_eq_consumed_append hi ⟨kind.1, hw, kind.2⟩

theorem FifoRun.in_order (run : FifoRun s w c t) (hi : s.Inv) (hf : s.fault = false) :
    s.unread ++ w = c ++ t.unread := by
  induction run with
  | done s => exact List.append_nil _
  | @command s s₁ t i w c kind runs good fits _ ih =>
    obtain ⟨-, hc⟩ := (exec_next runs).2.completed_of_good hf good
    calc s.unread ++ (committedBy i s ++ w)
        = consumedBy i s s₁ ++ (s₁.unread ++ w) := by
          rw [← List.append_assoc, hc.in_order hi kind fits, List.append_assoc]
      _ = consumedBy i s s₁ ++ c ++ t.unread := by rw [ih (hc.keeps_inv hi) good, List.append_assoc]
  | arrive p payload _ ih => exact ih (hi.take p payload) hf
  | dmaStore off b inside outside _ ih =>
    have ⟨_, _, _, _, _, hwf, _⟩ := hi
    rw [← State.unread_store hwf outside b]
    exact ih (hi.store inside b) hf

end

/-- Settles O50: by induction over the run (`FifoRun.in_order`); from an empty buffer nothing stands before `w`. -/
theorem roundTripLaw : Obligations.RoundTripLaw := by
  intro s t w c hi hf run
  have horder := run.in_order hi hf
  refine ⟨horder, fun hempty => ⟨t.unread, ?_⟩⟩
  rw [← horder, State.unread_eq_nil_iff.2 hempty, List.nil_append]

/-! ### Consuming the oldest unread bytes (rules R150, R155) -/

section
variable {s : State} {n : OperandWord} {d : Byte} {k m : Nat}

/-- The run of bytes that READ and READ_UNTIL look at. -/
theorem State.loadRun_read_min (s : State) (m : Nat) : s.loadRun s.read (min m s.count) = s.unread.take m := by
  rw [List.take_eq_take_min, State.length_unread, State.unread,
    State.take_loadRun s s.read (Nat.min_le_right m s.count)]

/-- Everything that consuming the oldest `m` unread bytes does. -/
theorem State.consume_oldest (hport : s.arrival.port = .consumer) (hm : m ≤ s.count) :
    s.consume (s.unread.take m) = { s with
      read := (s.read + m) % s.cfg.cursorModulus
      answers := s.answers ++
        [{ port := .consumer, err := false, result := BitVec.ofNat 32 m, data := s.unread.take m }] } := by
  have hlen : (s.unread.take m).length = m := by simp [hm]
  unfold State.consume
  rw [hlen, ← hport]
  rfl

theorem State.Inv.consume_oldest_unread (h : s.Inv) (hm : m ≤ s.count) :
    (s.consume (s.unread.take m)).unread = s.unread.drop m := by
  have hlen : (s.unread.take m).length = m := by simp [hm]
  rw [← h.advanceRead_unread hm]
  exact State.unread_congr rfl rfl (congrArg (s.cursorAdd s.read) hlen) rfl

/-- With nothing unread there is nothing to consume, and `read` stays. -/
theorem State.Inv.consume_nil (h : s.Inv) : s.consume [] = s.answer 0 [] := by
  have hstay : s.advanceRead 0 = s := congrArg (fun r => { s with read := r }) h.cursorAdd_zero
  exact congrArg (State.answer · 0 []) hstay

theorem exec_read_oldest (hr : s.Ready (.read n)) (h0 : 0 < n.toNat) :
    exec (.read n) s = .next (s.consume (s.unread.take n.toNat)) := by
  rw [exec_read hr h0, State.loadRun_read_min]

/-- READ_UNTIL consumes as many bytes as its loop emits. -/
theorem exec_readUntil_oldest (hr : s.Ready (.readUntil n d)) (h0 : 0 < n.toNat) (hm : m ≤ min n.toNat s.count)
    (hlen : (emitUntil d (s.loadRun s.read (min n.toNat s.count))).length = m) :
    exec (.readUntil n d) s = .next (s.consume (s.unread.take m)) := by
  have hmin : min m n.toNat = m := Nat.min_eq_left (hm.trans (Nat.min_le_left _ _))
  rw [exec_readUntil hr h0, emitUntil_eq_take, hlen, State.loadRun_read_min, List.take_take, hmin]

/-- The bytes that READ_UNTIL scans, by their offsets (rules R28, R53). -/
theorem State.getElem_loadRun_mod (hv : s.cfg.Valid) (c m j : Nat) (hj : j < (s.loadRun c m).length) :
    (s.loadRun c m)[j] = s.load ((c + j) % s.cfg.size) := by
  rw [State.getElem_loadRun, State.offset_cursorAdd hv]

theorem length_emitUntil_loadRun_of_first (hv : s.cfg.Valid) {c : Nat} (hk : k < m)
    (hd : s.load ((c + k) % s.cfg.size) = d) (first : ∀ j < k, s.load ((c + j) % s.cfg.size) ≠ d) :
    (emitUntil d (s.loadRun c m)).length = k + 1 := by
  refine length_emitUntil_of_first (by simpa using hk) ?_ fun j hj => ?_
  · rwa [State.getElem_loadRun_mod hv]
  · rw [State.getElem_loadRun_mod hv]
    exact first j hj

theorem length_emitUntil_loadRun_of_none (hv : s.cfg.Valid) {c : Nat}
    (absent : ∀ j < m, s.load ((c + j) % s.cfg.size) ≠ d) : (emitUntil d (s.loadRun c m)).length = m := by
  have hd : d ∉ s.loadRun c m := by
    rw [List.mem_iff_getElem]
    rintro ⟨j, hj, he⟩
    rw [State.getElem_loadRun_mod hv] at he
    exact absent j (by simpa using hj) he
  rw [emitUntil_of_not_mem hd, State.length_loadRun]

end

/-- Settles O44: READ consumes the oldest `min(N, count)` unread bytes. -/
theorem readResult : Obligations.ReadResult := by
  intro s n h hf hport hpay h0 r a
  have hready : s.Ready (.read n) := State.ready_on h.1 hf hport rfl (congrArg List.length hpay)
  have hcount : min n.toNat s.count ≤ s.count := Nat.min_le_right _ _
  have htake : s.unread.take n.toNat = s.unread.take (min n.toNat s.count) := by
    rw [List.take_eq_take_min, State.length_unread]
  have hdrop : s.unread.drop n.toNat = s.unread.drop (min n.toNat s.count) := by
    rw [List.drop_eq_drop_min, State.length_unread]
  refine ⟨_, exec_read_oldest hready h0, ?_, ?_⟩
  · simp only [a, r, htake, State.consume_oldest hport hcount]
  · rw [htake, h.consume_oldest_unread hcount, hdrop]

/-- Settles O45: the one byte that READ consumes is the one at the offset of `read`. -/
theorem singleByteReadFastPath : Obligations.SingleByteReadFastPath := by
  intro s h hf hport hpay
  have hready : s.Ready (.read 1) := State.ready_on h.1 hf hport rfl (congrArg List.length hpay)
  have hexec : exec (.read 1) s = .next (s.consume (s.unread.take 1)) := exec_read_oldest hready Nat.one_pos
  refine ⟨fun hone => ?_, fun hempty => ?_⟩
  · have hfirst : s.unread.take 1 = [s.load (s.offset s.read)] := by
      rw [State.unread, State.take_loadRun s s.read hone]
      exact congrArg (fun r => [s.load (s.offset r)]) h.cursorAdd_zero
    rw [hexec, State.consume_oldest hport hone, hfirst]
    rfl
  · rw [hexec, State.unread_eq_nil_iff.2 hempty, List.take_nil, h.consume_nil, ← hport]
    rfl

/-- Settles O46: the loop emits up to the first delimiter, or everything it scans. -/
theorem readUntilResult : Obligations.ReadUntilResult := by
  intro s n d h hf hport hpay h0 copied
  have hready : s.Ready (.readUntil n d) := State.ready_on h.1 hf hport rfl (congrArg List.length hpay)
  have hcopied {m : Nat} (hm : m ≤ min n.toNat s.count)
      (hlen : (emitUntil d (s.loadRun s.read (min n.toNat s.count))).length = m) :
      exec (.readUntil n d) s = .next (copied m) := by
    rw [exec_readUntil_oldest hready h0 hm hlen, State.consume_oldest hport (hm.trans (Nat.min_le_right _ _))]
  refine ⟨fun k hk hd first => ?_, fun absent => ?_⟩
  · exact hcopied hk (length_emitUntil_loadRun_of_first h.1 hk hd first)
  · exact hcopied le_rfl (length_emitUntil_loadRun_of_none h.1 absent)

/-! ### The frame of the consumer commands (rules R36, R161) -/

/-- READ, READ_UNTIL and SYNC_TO_BYTE. -/
abbrev IsConsumer (i : Instr) : Prop := i.opcode = .read ∨ i.opcode = .readUntil ∨ i.opcode = .syncToByte

theorem IsConsumer.not_producer {i : Instr} (h : IsConsumer i) :
    i.opcode ≠ .init ∧ i.opcode ≠ .write ∧ i.opcode ≠ .dmaAdvance := by
  obtain h | h | h := h <;> simp [h]

/-- `read` moves over `m` unread bytes, and where the command's result is a number of bytes it is `m`. -/
def MovesRead (i : Instr) (s t : State) : Prop :=
  ∃ (m : Nat) (a : Answer), m ≤ s.count ∧ t.read = (s.read + m) % s.cfg.cursorModulus ∧ t.count = s.count - m ∧
    t.answers = s.answers ++ [a] ∧ (i.opcode ≠ .syncToByte → a.result.toNat = m)

section
variable {i : Instr} {s t : State}

/-- A command that is refused or violates its contract leaves `read` and answers 0. -/
theorem State.Inv.movesRead_err (h : s.Inv) (hcount : t.count = s.count) (hread : t.read = s.read)
    (hans : t.answers = s.answerErr.answers) : MovesRead i s t :=
  ⟨0, _, Nat.zero_le _, hread.trans h.cursorAdd_zero.symm, hcount, hans, fun _ => rfl⟩

theorem State.Inv.movesRead_consume (h : s.Inv) {d : List Byte} (hd : d.length ≤ s.count) :
    MovesRead i s (s.consume d) :=
  ⟨d.length, _, hd, rfl, h.advanceRead_count hd, rfl, fun _ => resultOfNat_toNat h.1 (hd.trans s.count_le_mask)⟩

theorem Completes.movesRead (h : Completes i s t) (hi : s.Inv) (hcons : IsConsumer i) : MovesRead i s t := by
  cases h with
  | read => exact hi.movesRead_consume (by simp)
  | readUntil _ n d => exact hi.movesRead_consume (length_emitUntil_le_count s d n.toNat)
  | syncToByte _ b =>
    have hm : dropsBefore b s.unread ≤ s.count := by simpa using dropsBefore_le b s.unread
    exact ⟨_, _, hm, rfl, hi.advanceRead_count hm, rfl, fun hne => absurd rfl hne⟩
  | _ => simp [IsConsumer, Instr.opcode] at hcons

theorem Ran.movesRead (h : Ran i s t) (hi : s.Inv) (hcons : IsConsumer i) : MovesRead i s t := by
  cases h with
  | faulted _ _ he => exact he ▸ hi.movesRead_err rfl rfl rfl
  | violated _ c _ he => exact he ▸ hi.movesRead_err rfl rfl rfl
  | completed _ hc => exact hc.movesRead hi hcons

/-- No consumer command touches the producer's registers or storage. -/
theorem Ran.consumer_keeps (h : Ran i s t) (hi : s.Inv) (hcons : IsConsumer i) :
    t.write = s.write ∧ t.dmaCnt = s.dmaCnt ∧ t.fullCnt = s.fullCnt ∧ t.storage = s.storage := by
  cases h with
  | faulted _ _ he => exact he ▸ ⟨rfl, rfl, rfl, rfl⟩
  | violated _ _ _ he => exact he ▸ ⟨rfl, rfl, rfl, rfl⟩
  | completed _ hc =>
    obtain ⟨hwrite, hdma, hfull, hmem, -⟩ := hc.within_unread hi hcons.not_producer
    exact ⟨hwrite, hdma, hfull, hmem⟩

end

/-- Settles O49: what stays by `Ran.consumer_keeps`, what moves by `Ran.movesRead`. -/
theorem consumerFrame : Obligations.ConsumerFrame := by
  intro i s t hi hcons he
  have hran : Ran i s t := (exec_next he).2
  obtain ⟨hcfg, hqP, hqC, harr, hsch⟩ := hran.sameInterface
  obtain ⟨hwrite, hdma, hfull, hmem⟩ := hran.consumer_keeps hi hcons
  refine ⟨hcfg, hwrite, hdma, hfull, hqP, hqC, harr, hsch, State.load_congr hmem, hran.movesRead hi hcons, ?_⟩
  exact hran.fault_kept_or_entered.imp_right fun ⟨hf, ht, _, hread, _⟩ => ⟨hf, ht, hread⟩

end Sys2Proof.Machine

/-! # Scope: DMA_ADVANCE and the peripheral's count

A countdown sample names the position where the peripheral stores next, so a sample after `T` more bytes commits
`T mod SIZE` of them (`State.reconcile_eq_commit`). The cumulative law is an induction over the sampled run, in which
`State.Accounts` composes: `write` moves by as many bytes as the peripheral's count, and `dma_cnt` is its position. -/

namespace Sys2Proof.Machine

/-! ### The produced position of any sample (rule R171) -/

section
variable {size : Nat} {v : Int}

theorem clampSample_of_inside (h1 : 1 ≤ v) (hv : v < size) : (clampSample size v : Int) = v := by
  rw [natCast_clampSample, if_neg (by omega), if_neg (by omega)]

theorem clampSample_of_outside (h : v < 1 ∨ size ≤ v) : clampSample size v = 0 ∨ clampSample size v = size := by
  have hclamp := natCast_clampSample size v
  split at hclamp
  · omega
  · split at hclamp <;> omega

theorem producedOf_of_inside (h1 : 1 ≤ v) (hv : v < size) : (producedOf size v : Int) = size - v := by
  have hclamp : (clampSample size v : Int) = v := clampSample_of_inside h1 hv
  have hlt : size - clampSample size v < size := by omega
  rw [producedOf, Nat.mod_eq_of_lt hlt]
  omega

theorem producedOf_of_outside (h : v < 1 ∨ size ≤ v) : producedOf size v = 0 := by
  obtain hc | hc := clampSample_of_outside h <;> simp [producedOf, hc]

end

/-- A sample at or beyond 2^31 is negative when read as signed and no less than SIZE when read as unsigned. -/
theorem producedOf_unsigned {c : Config} (hc : c.Valid) (v : OperandWord) :
    producedOf c.size (v.toNat : Int) = producedOf c.size v.toInt := by
  have hsize : c.size ≤ 2 ^ 31 := Config.size_le hc
  by_cases hv : 2 * v.toNat < 2 ^ 32
  · rw [BitVec.toInt_eq_toNat_of_lt hv]
  · have hneg : v.toInt < 1 := by
      rw [BitVec.toInt_eq_toNat_cond, if_neg hv]
      omega
    have hbig : (c.size : Int) ≤ v.toNat := by omega
    rw [producedOf_of_outside (.inl hneg), producedOf_of_outside (.inr hbig)]

/-- Settles O53: inside `[1, MASK]` the clamp leaves the sample (`producedOf_of_inside`), outside it the position is 0
(`producedOf_of_outside`), for the signed and for the unsigned reading. -/
theorem producedPosition : Obligations.ProducedPosition := by
  intro c v hc
  have hmask := c.size_eq
  refine ⟨Nat.le_sub_one_of_lt (producedOf_lt c.size_pos _), fun h1 hle => ?_, fun hout => ?_, producedOf_unsigned hc v⟩
  · exact producedOf_of_inside h1 (by omega)
  · exact producedOf_of_outside (by omega)

/-! ### What a sample commits (rules R172, R175) -/

/-- Of the `T` bytes stored since the last sample, all but the whole laps are committed. -/
theorem State.reconcile_eq_commit {s : State} {J : Nat} (hd : s.dmaCnt = J % s.cfg.size) (T : Nat) :
    s.reconcile ((J + T) % s.cfg.size) =
      ({ s with dmaCnt := (J + T) % s.cfg.size } : State).commit (T % s.cfg.size) := by
  rw [State.reconcile, hd, wrapSub_positions]

/-- A commit of nothing fires no overwrite. -/
theorem State.commit_zero_keeps (s : State) : (s.commit 0).read = s.read ∧ (s.commit 0).fullCnt = s.fullCnt := by
  rw [State.commit_read, State.commit_fullCnt, if_neg (Nat.not_lt_zero _), if_neg (Nat.not_lt_zero _)]
  exact ⟨rfl, rfl⟩

/-- Settles O54: the sample commits `T mod SIZE` bytes (`State.reconcile_eq_commit`). -/
theorem wholeLapsAreLost : Obligations.WholeLapsAreLost := by
  intro s v J T hi hf hport hpay hd reads
  refine ⟨_, (hi.stretch_done hf 0).exec_sample hi.1 hport hpay reads, ?_⟩
  rw [State.reconcile_eq_commit hd]
  refine ⟨State.commit_write _ _, State.commit_dmaCnt _ _, fun hT => ?_⟩
  rw [hT]
  exact State.commit_zero_keeps { s with dmaCnt := (J + T) % s.cfg.size }

/-! ### The cumulative law (rule R176) -/

/-- From `s` to `t` the peripheral's count goes from `J` to `J'`, `write` moves by as many bytes, and `dma_cnt` is at
the peripheral's position. -/
structure State.Accounts (s : State) (J : Nat) (t : State) (J' : Nat) : Prop where
  cfg    : t.cfg = s.cfg
  le     : J ≤ J'
  write  : t.write = s.cursorAdd s.write (J' - J)
  dmaCnt : t.dmaCnt = J' % t.cfg.size

section
variable {s s₁ t : State} {i : Instr} {v : OperandWord} {J J₁ J' T : Nat}

/-- What moves neither `write` nor `dma_cnt` accounts for no bytes. -/
theorem State.Inv.accounts_kept (h : s.Inv) (hd : s.dmaCnt = J % s.cfg.size) (hcfg : t.cfg = s.cfg)
    (hwrite : t.write = s.write) (hdma : t.dmaCnt = s.dmaCnt) : s.Accounts J t J := by
  have ⟨_, hw, _⟩ := h
  refine ⟨hcfg, le_rfl, ?_, by rw [hdma, hd, hcfg]⟩
  rw [hwrite, Nat.sub_self, State.cursorAdd, wrapAdd_zero hw]

/-- Two stretches of a run account for their bytes together. -/
theorem State.Accounts.trans (h : s.Accounts J s₁ J₁) (h' : s₁.Accounts J₁ t J') : s.Accounts J t J' := by
  have hle := h.le
  have hle' := h'.le
  refine ⟨h'.cfg.trans h.cfg, hle.trans hle', ?_, h'.dmaCnt⟩
  calc t.write
      = s.cursorAdd (s.cursorAdd s.write (J₁ - J)) (J' - J₁) := by rw [h'.write, State.cursorAdd_congr h.cfg, h.write]
    _ = s.cursorAdd s.write (J' - J) := by
      rw [State.cursorAdd_cursorAdd, Nat.add_comm, Nat.sub_add_sub_cancel hle' hle]

/-- A sample taken before SIZE bytes are stored accounts for all of them. -/
theorem Completes.accounts_sample (h : Completes (.dmaAdvance v) s t) (hd : s.dmaCnt = J % s.cfg.size)
    (few : T < s.cfg.size) (reads : CountdownReads s.cfg.size (J + T) v.toInt) : s.Accounts J t (J + T) := by
  cases h
  rw [producedOf_of_reads s.cfg.size_pos reads, State.reconcile_positions few hd]
  refine ⟨State.commit_cfg _ _, Nat.le_add_right J T, ?_, ?_⟩
  · rw [Nat.add_sub_cancel_left]
    exact State.commit_write _ _
  · rw [State.answer_dmaCnt, State.answer_cfg, State.commit_dmaCnt, State.commit_cfg]

/-- A query or consumer command accounts for no bytes. -/
theorem Completes.accounts_other (h : Completes i s t) (hi : s.Inv) (hd : s.dmaCnt = J % s.cfg.size)
    (kind : i.opcode ≠ .init ∧ i.opcode ≠ .write ∧ i.opcode ≠ .dmaAdvance) : s.Accounts J t J := by
  obtain ⟨hcfg, -⟩ := h.sameInterface
  obtain ⟨hwrite, hdma, -⟩ := h.within_unread hi kind
  exact hi.accounts_kept hd hcfg hwrite hdma

theorem SampledRun.accounts (run : SampledRun s J t J') (hi : s.Inv) (hf : s.fault = false)
    (hd : s.dmaCnt = J % s.cfg.size) : s.Accounts J t J' := by
  induction run with
  | done s J => exact hi.accounts_kept hd rfl rfl rfl
  | sample few reads runs good _ ih =>
    obtain ⟨-, hc⟩ := (exec_next runs).2.completed_of_good hf good
    have hsample := hc.accounts_sample hd few reads
    exact hsample.trans (ih (hc.keeps_inv hi) good hsample.dmaCnt)
  | other kind runs good _ ih =>
    obtain ⟨-, hc⟩ := (exec_next runs).2.completed_of_good hf good
    have hkept := hc.accounts_other hi hd kind
    exact hkept.trans (ih (hc.keeps_inv hi) good hkept.dmaCnt)
  | store off b inside _ ih =>
    exact (hi.accounts_kept (t := State.store _ off b) hd rfl rfl rfl).trans (ih (hi.store inside b) hf hd)
  | arrive p payload _ ih =>
    exact (hi.accounts_kept (t := State.take _ p payload) hd rfl rfl rfl).trans (ih (hi.take p payload) hf hd)

end

/-- Settles O55: by induction over the run (`SampledRun.accounts`). -/
theorem cumulativeDmaAdvance : Obligations.CumulativeDmaAdvance := by
  intro s t J J' hi hf hd run
  have h := run.accounts hi hf hd
  exact ⟨h.le, h.write, h.cfg ▸ h.dmaCnt⟩

end Sys2Proof.Machine

/-! # Scope: resynchronisation

SYNC_TO_BYTE moves `read` by `dropsBefore`, so both statements turn on what that number is: for the byte-by-byte result
it is the index of the first marker, and for the loop it is the number of turns, one for each unread byte in front of
the marker (`State.Inv.unread_eq_cons`). -/

namespace Sys2Proof.Machine

/-! ### How many bytes are dropped (rule R190) -/

section
variable {m : Byte} {l : List Byte} {k : Nat}

theorem dropsBefore_of_first (hk : k < l.length) (hm : l[k] = m) (first : ∀ (j : Nat) (hj : j < k), l[j] ≠ m) :
    dropsBefore m l = k := by
  obtain hlt | heq | hgt := Nat.lt_trichotomy (dropsBefore m l) k
  · exact absurd (getElem_dropsBefore (hlt.trans hk)) (first _ hlt)
  · exact heq
  · exact absurd hm (ne_of_lt_dropsBefore hgt)

theorem dropsBefore_of_not_mem (h : m ∉ l) : dropsBefore m l = l.length := by
  refine (dropsBefore_le m l).antisymm (not_lt.1 fun hlt => h ?_)
  exact List.mem_of_getElem (getElem_dropsBefore hlt)

end

section
variable {s : State} {m : Byte} {k : Nat}

/-- The unread bytes by their offsets (rules R28, R53). -/
theorem State.getElem_unread_mod (hv : s.cfg.Valid) {j : Nat} (hj : j < s.unread.length) :
    s.unread[j] = s.load ((s.read + j) % s.cfg.size) := State.getElem_loadRun_mod hv s.read s.count j hj

theorem State.dropsBefore_unread_le (s : State) (m : Byte) : dropsBefore m s.unread ≤ s.count := by
  simpa using dropsBefore_le m s.unread

theorem dropsBefore_unread_of_first (hv : s.cfg.Valid) (hk : k < s.count)
    (hm : s.load ((s.read + k) % s.cfg.size) = m) (first : ∀ j < k, s.load ((s.read + j) % s.cfg.size) ≠ m) :
    dropsBefore m s.unread = k := by
  refine dropsBefore_of_first (by simpa using hk) ?_ fun j hj => ?_
  · rwa [State.getElem_unread_mod hv]
  · rw [State.getElem_unread_mod hv]
    exact first j hj

theorem dropsBefore_unread_of_none (hv : s.cfg.Valid) (absent : ∀ j < s.count, s.load ((s.read + j) % s.cfg.size) ≠ m) :
    dropsBefore m s.unread = s.count := by
  have hm : m ∉ s.unread := by
    rw [List.mem_iff_getElem]
    rintro ⟨j, hj, he⟩
    rw [State.getElem_unread_mod hv] at he
    exact absent j (by simpa using hj) he
  rw [dropsBefore_of_not_mem hm, State.length_unread]

/-- Everything that SYNC_TO_BYTE does: it is legal on the consumer's port only, so it answers there. -/
theorem exec_syncToByte_consumer (hr : s.Ready (.syncToByte m)) :
    exec (.syncToByte m) s = .next { s.advanceRead (dropsBefore m s.unread) with
      answers := s.answers ++ [{ port := .consumer, err := false, result := 0, data := [] }] } := by
  have hport : s.arrival.port = .consumer := of_decide_eq_true hr.2.2.1
  rw [exec_syncToByte hr, ← hport]
  rfl

end

/-- Settles O47: the number of bytes dropped is the index of the first marker, or the count, and `write` is the count
away from `read`. -/
theorem syncToByteResult : Obligations.SyncToByteResult := by
  intro s m h hf hport hpay
  have hready : s.Ready (.syncToByte m) := State.ready_on h.1 hf hport rfl (congrArg List.length hpay)
  have hexec := exec_syncToByte_consumer hready
  refine ⟨fun k hk hm first => ?_, fun absent => ?_⟩
  · rw [hexec, dropsBefore_unread_of_first h.1 hk hm first]
    rfl
  · rw [hexec, dropsBefore_unread_of_none h.1 absent, State.advanceRead, h.write_eq]

/-! ### The loop that drops one byte at a time (rules R190, R191) -/

section
variable {s : State} {m : Byte}

theorem State.Inv.advanceRead_zero (h : s.Inv) : s.advanceRead 0 = s :=
  congrArg (fun r => { s with read := r }) h.cursorAdd_zero

theorem State.advanceRead_advanceRead (s : State) (k j : Nat) :
    (s.advanceRead k).advanceRead j = s.advanceRead (k + j) :=
  congrArg (fun r => { s with read := r }) (s.cursorAdd_cursorAdd s.read k j)

/-- The oldest unread byte is the one at `pr`, and the others are what is unread without it. -/
theorem State.Inv.unread_eq_cons (h : s.Inv) (hpos : 0 < s.count) :
    s.unread = s.load s.pr :: (s.advanceRead 1).unread := by
  have hlen : 0 < s.unread.length := by rwa [State.length_unread]
  have hhead : s.unread[0] = s.load s.pr := by rw [State.getElem_unread, h.cursorAdd_zero, State.pr]
  rw [← hhead, h.advanceRead_unread hpos, List.cons_getElem_drop_succ, List.drop_zero]

/-- With a turn for each unread byte the loop drops as many as SYNC_TO_BYTE does. -/
theorem State.Inv.syncLoop_eq (h : s.Inv) : syncLoop m s.count s = s.advanceRead (dropsBefore m s.unread) := by
  generalize hn : s.count = n
  induction n generalizing s with
  | zero => rw [State.unread_eq_nil_iff.2 hn, syncLoop, dropsBefore, h.advanceRead_zero]
  | succ n ih =>
    have hpos : 0 < s.count := by omega
    have hrest : (s.advanceRead 1).count = n := by rw [h.advanceRead_count hpos, hn, Nat.add_sub_cancel]
    rw [h.unread_eq_cons hpos, syncLoop, dropsBefore]
    by_cases hm : s.load s.pr = m
    · rw [if_neg fun hgo => hgo.2 hm, if_pos hm, h.advanceRead_zero]
    · rw [if_pos ⟨hpos, hm⟩, if_neg hm, ih (h.advanceRead hpos) hrest, State.advanceRead_advanceRead, Nat.add_comm]

/-- Where SYNC_TO_BYTE stops, nothing is unread or the byte at `pr` is the marker (rule R191). -/
theorem State.Inv.resynced (h : s.Inv) (m : Byte) :
    (s.advanceRead (dropsBefore m s.unread)).count = 0 ∨
      (s.advanceRead (dropsBefore m s.unread)).load (s.advanceRead (dropsBefore m s.unread)).pr = m := by
  have hle := s.dropsBefore_unread_le m
  obtain heq | hlt := hle.eq_or_lt
  · left
    rw [h.advanceRead_count hle, heq, Nat.sub_self]
  · right
    have hlen : dropsBefore m s.unread < s.unread.length := by rwa [State.length_unread]
    exact (s.getElem_unread _ hlen).symm.trans (getElem_dropsBefore hlen)

end

/-- Settles O48: the loop is the one advance of `read` (`State.Inv.syncLoop_eq`), and it ends where
`State.Inv.resynced` says. -/
theorem syncToByteIsTheDropLoop : Obligations.SyncToByteIsTheDropLoop := by
  intro s m h hready
  rw [h.syncLoop_eq]
  exact ⟨exec_syncToByte_consumer hready, h.resynced m⟩

end Sys2Proof.Machine

/-! # Scope: exceptions

What a contract violation records and leaves alone, the faulted state, the roles of the ports, and the two cases in
which a step runs nothing: there is nothing to do, or the configuration is no example of this hardware. -/

namespace Sys2Proof.Machine

/-! ### Fault entry (rule R205) -/

section
variable {s t : State} {w : CommandWord}

/-- A command that starts with FAULT = 0 and ends with FAULT = 1 did nothing but raise its violation: a command's own
rule does not write FAULT. -/
theorem WordRan.violated_of_entered (h : WordRan w s t) (hf : s.fault = false) (ht : t.fault = true) :
    ∃ k, t = s.violated k := by
  cases h with
  | ran i _ hr =>
    cases hr with
    | faulted hs => simp [hf] at hs
    | violated _ k _ he => exact ⟨k, he⟩
    | completed _ hc => simp [hc.fault.1, hf] at ht
  | faulted _ _ hs => simp [hf] at hs
  | violated _ _ _ k he => exact ⟨k, he⟩

end

/-- A violation of a command taken from port `p`: the record and the response, on that port. -/
theorem State.violated_taken (s : State) (p : Port) (c : Command) (q : List Command) (k : Cause) :
    (s.taken p c q).violated k = { s.taken p c q with
      fault := true, cause := k.code,
      answers := s.answers ++ [{ port := p, err := true, result := 0, data := [] }] } := by
  cases p <;> rfl

/-- Settles O20: the step runs the command's word, which entered the fault by a violation only. -/
theorem faultEntryIsPrecise : Obligations.FaultEntryIsPrecise := by
  intro s t p c q es hs hq hf hstep ht
  obtain ⟨hv, -⟩ := step_next hstep
  obtain ⟨u, hu, hran⟩ := runWord_answers_next (s := ({ s with schedule := es } : State).taken p c q)
    (by simpa using hv) c.word
  rw [step_serve hv hs hq, hu, Host.Outcome.next.injEq] at hstep
  subst hstep
  obtain ⟨k, rfl⟩ := hran.violated_of_entered (by simpa using hf) ht
  exact ⟨k.code, k.code_range.1, k.code_range.2, State.violated_taken _ p c q k⟩

/-! ### The faulted state (rule R206) -/

section
variable {s t : State}

/-- STATUS with an empty payload executes while FAULT is 1. -/
theorem exec_status_faulted (hv : s.cfg.Valid) (hf : s.fault = true) (hp : s.arrival.payload = []) :
    exec .status s = .next (s.answer s.statusWord []) :=
  if_pos ⟨hv, hf, hp⟩

theorem Ran.keeps_fault {i : Instr} (h : Ran i s t) (hf : s.fault = true) : t.fault = true ∧ t.cause = s.cause := by
  rcases h.fault_kept_or_entered with ⟨hfault, hcause⟩ | ⟨hgood, -⟩
  · exact ⟨hfault.trans hf, hcause⟩
  · simp [hf] at hgood

theorem WordRan.keeps_fault {w : CommandWord} (h : WordRan w s t) (hf : s.fault = true) :
    t.fault = true ∧ t.cause = s.cause := by
  cases h with
  | ran _ _ hr => exact hr.keeps_fault hf
  | faulted _ _ _ he => exact he ▸ ⟨hf, rfl⟩
  | violated _ _ hgood => simp [hf] at hgood

/-- Every event but reset keeps FAULT and the first CAUSE. -/
theorem Stepped.keeps_fault (h : Stepped s t) (hf : s.fault = true) (hreset : ∀ es, s.schedule ≠ .reset :: es) :
    t.fault = true ∧ t.cause = s.cause := by
  cases h with
  | idle _ he =>
    subst he
    exact ⟨hf, rfl⟩
  | issue _ _ _ _ he => simp [he, hf]
  | nothingWaiting _ _ _ _ he => exact he ▸ ⟨hf, rfl⟩
  | served _ _ _ _ _ _ hw => simpa using hw.keeps_fault (by simpa using hf)
  | dmaStore _ _ _ _ _ he => exact he ▸ ⟨hf, rfl⟩
  | reset es hs => exact absurd hs (hreset es)

/-- A command taken while FAULT is 1 only answers: STATUS its word, and every other command `ERR = 1`. -/
theorem step_serve_faulted (hv : s.cfg.Valid) (hf : s.fault = true) {p : Port} {c : Command} {q : List Command}
    {es : List Event} (hs : s.schedule = .serve p :: es) (hq : s.queue p = c :: q) :
    step s = .next { ({ s with schedule := es } : State).taken p c q with
      answers := s.answers ++ [if c.word = 0x000000000000000F#64 ∧ c.payload = [] then
        { port := p, err := false, result := s.statusWord, data := [] }
      else { port := p, err := true, result := 0, data := [] }] } := by
  have htv : (({ s with schedule := es } : State).taken p c q).cfg.Valid := by simpa using hv
  have htf : (({ s with schedule := es } : State).taken p c q).fault = true := by simpa using hf
  rw [step_serve hv hs hq]
  split_ifs with hx
  · rw [runWord_of_decodes (decodeWord_eq_status_iff.2 hx.1), exec_status_faulted htv htf hx.2]
    cases p <;> rfl
  · rw [runWord_faulted htv htf hx]
    cases p <;> rfl

end

/-- Settles O21: a taken command only answers, only reset writes the record, and a DMA store does not read it. -/
theorem faultedState : Obligations.FaultedState := by
  intro s hv hf
  refine ⟨fun p c q es hs hq => step_serve_faulted hv hf hs hq,
    fun t hstep hreset => (step_next hstep).2.keeps_fault hf hreset, fun es t hs hstep => ?_,
    fun off b es hs ho => (step_dmaStore hv hs).trans (if_pos ho),
    fun hgood => Bool.false_ne_true (hgood.symm.trans hf)⟩
  rw [step_reset hv hs, Host.Outcome.next.injEq] at hstep
  exact hstep ▸ ⟨rfl, rfl⟩

/-! ### The roles of the ports (rules R70, R207) -/

/-- The opcode of a word is the one whose OPC value its low four bits are (rules R73, R78). -/
theorem ofCode_fieldOpc_of_mod {w : CommandWord} {op : Opcode} (h : w.toNat % 16 = op.code.toNat) :
    Opcode.ofCode (fieldOpc w) = some op := by
  have hcode : fieldOpc w = op.code := BitVec.eq_of_toNat_eq (by simpa [fieldOpc] using h)
  rw [hcode, Opcode.ofCode_code]

/-- A command taken from a port on which its opcode is not legal raises ROLE_VIOLATION. -/
theorem step_serve_wrongPort {s : State} (hv : s.cfg.Valid) (hf : s.fault = false) {p : Port} {c : Command}
    {q : List Command} {es : List Event} (hs : s.schedule = .serve p :: es) (hq : s.queue p = c :: q) (op : Opcode)
    (hop : c.word.toNat % 16 = op.code.toNat) (hl : op.legalOn p = false) :
    step s = .next ((({ s with schedule := es } : State).taken p c q).violated .roleViolation) :=
  (step_serve hv hs hq).trans
    (runWord_wrongPort (ofCode_fieldOpc_of_mod hop) (by simpa using hv) (by simpa using hf) hl)

/-- Settles O22: the five opcodes and their wrong ports, one by one. -/
theorem wrongPortRaisesRoleViolation : Obligations.WrongPortRaisesRoleViolation := by
  intro s p c q es hv hf hs hq hwrong
  have hraise (op : Opcode) (hop : c.word.toNat % 16 = op.code.toNat) (hl : op.legalOn p = false) :=
    (step_serve_wrongPort hv hf hs hq op hop hl).trans
      (congrArg Host.Outcome.next (State.violated_taken _ p c q .roleViolation))
  rcases hwrong with ⟨rfl, h | h⟩ | ⟨rfl, h | h | h⟩
  · exact hraise .write h rfl
  · exact hraise .dmaAdvance h rfl
  · exact hraise .read h rfl
  · exact hraise .readUntil h rfl
  · exact hraise .syncToByte h rfl

/-! ### Nothing to do (rules R218, R231) -/

theorem step_idle {s : State} (hv : s.cfg.Valid) (hs : s.schedule = []) : step s = .next s := by
  unfold step runSchedule
  rw [if_neg (not_not.2 hv), hs]

theorem step_nothingWaiting {s : State} (hv : s.cfg.Valid) {p : Port} {es : List Event}
    (hs : s.schedule = .serve p :: es) (hq : s.queue p = []) : step s = .next { s with schedule := es } := by
  unfold step runSchedule
  rw [if_neg (not_not.2 hv), hs]
  simp only [runEvent, serveEvent, queue_schedule, hq]

/-- Settles O9: the two kinds of idle step. -/
theorem idleStepsChangeNothing : Obligations.IdleStepsChangeNothing :=
  ⟨fun _ hv hs => step_idle hv hs, fun _ _ _ hv hs hq => step_nothingWaiting hv hs hq⟩

/-! ### A configuration that is no example of this hardware (rule R201) -/

theorem step_of_invalid {s : State} (hv : ¬ s.cfg.Valid) : step s = .refused .invalidConfiguration := if_pos hv

theorem exec_of_invalid {s : State} (hv : ¬ s.cfg.Valid) (i : Instr) : exec i s = .refused .invalidConfiguration := by
  rcases exec_ranOr i s with ⟨-, hr⟩ | ⟨hvalid, -⟩
  · exact hr
  · exact absurd hvalid hv

/-- Settles O12: outside rule R201's ranges the configuration is not valid, which is checked before anything else. -/
theorem invalidConfigurationRefused : Obligations.InvalidConfigurationRefused := by
  intro s hrange
  have hv : ¬ s.cfg.Valid := by
    rintro ⟨hlow, hhigh, hwidth⟩
    omega
  exact ⟨step_of_invalid hv, exec_of_invalid hv⟩

end Sys2Proof.Machine

/-! # Scope: reset and hazards

A hardware reset has one successor whatever the registers, the fault record and the waiting commands were
(`step_reset`), so it is compared with INIT field by field (`initResult`, `exec_faulted`). -/

namespace Sys2Proof.Machine

/-- Settles O14: `State.hardReset` writes these fields and no other. -/
theorem hardwareResetEffect : Obligations.HardwareResetEffect :=
  fun _ _ hv hs => step_reset hv hs

/-- Reset forgets the fault record (rule R230). -/
theorem State.hardReset_faulted (s : State) (f : Bool) (k : BitVec 4) :
    ({ s with fault := f, cause := k } : State).hardReset = s.hardReset := rfl

@[simp] theorem State.queue_hardReset (s : State) (p : Port) : s.hardReset.queue p = [] := by cases p <;> rfl

/-- Settles O25: reset and a completed INIT zero the same registers; CAUSE after INIT is the CAUSE before it, which the
invariant makes 0, and reset forgets the fault record that makes INIT answer `ERR = 1`. -/
theorem resetAndInitAgree : Obligations.ResetAndInitAgree := by
  intro s t u es hi hf hp hinit hreset
  obtain ⟨hv, -, -, -, -, -, -, hgood, -⟩ := hi
  have hresetTo (k : BitVec 4) :
      step { s with fault := true, cause := k, schedule := .reset :: es }
        = .next ({ s with schedule := es } : State).hardReset :=
    (step_reset (s := { s with fault := true, cause := k, schedule := .reset :: es }) hv rfl).trans
      (congrArg Host.Outcome.next (State.hardReset_faulted { s with schedule := es } true k))
  rw [initResult s hv hf hp, Host.Outcome.next.injEq] at hinit
  rw [step_reset (s := { s with schedule := .reset :: es }) hv rfl, Host.Outcome.next.injEq] at hreset
  subst hinit hreset
  refine ⟨rfl, rfl, rfl, rfl, rfl, hf, hgood hf, rfl, rfl, fun p => ?_, State.queue_hardReset _, fun k => ?_⟩
  · cases p <;> rfl
  · exact ⟨hresetTo k, exec_faulted (s := { s with fault := true, cause := k }) hv rfl (by simp)⟩

end Sys2Proof.Machine
